-- ==== Sys2Proof/Word.lean ====
section
/-! DEFINITION. The word types of the CHIP-8 core (00_scope.md R6, R11). -/

namespace Sys2Proof

/-- An 8-bit value: a general register, a timer, a byte of memory, the field `nn`. -/
abbrev Byte := BitVec 8

/-- A 16-bit value: PC, I, a stack slot, an opcode. -/
abbrev Word := BitVec 16

/-- A 12-bit value: the address field `nnn`. -/
abbrev Addr := BitVec 12

/-- A 4-bit value: the fields `x`, `y` and `n`, a register number or a key number. -/
abbrev Nibble := BitVec 4

end Sys2Proof
end

