-- ==== Sys2Proof/Syntax.lean ====
section
/-! DEFINITION. The 35 instructions of the core, one constructor a row of spec/opcode_table.json, in the
table's order (30_encoding.md R69). Operands are the fields of R59. -/

namespace Sys2Proof

/-- An instruction of the CHIP-8 core with its fields (30_encoding.md R67, R69). -/
inductive Instr where
  /-- 00E0 `CLS` (R114). -/
  | cls
  /-- 00EE `RET` (R82). -/
  | ret
  /-- 0NNN `SYS addr` (R83). -/
  | sys (nnn : Addr)
  /-- 1NNN `JP addr` (R84). -/
  | jp (nnn : Addr)
  /-- 2NNN `CALL addr` (R85). -/
  | call (nnn : Addr)
  /-- 3XNN `SE Vx, NN` (R87). -/
  | seImm (x : Nibble) (nn : Byte)
  /-- 4XNN `SNE Vx, NN` (R88). -/
  | sneImm (x : Nibble) (nn : Byte)
  /-- 5XY0 `SE Vx, Vy` (R89). -/
  | seReg (x y : Nibble)
  /-- 6XNN `LD Vx, NN` (R94). -/
  | ldImm (x : Nibble) (nn : Byte)
  /-- 7XNN `ADD Vx, NN` (R95). -/
  | addImm (x : Nibble) (nn : Byte)
  /-- 8XY0 `LD Vx, Vy` (R96). -/
  | ldReg (x y : Nibble)
  /-- 8XY1 `OR Vx, Vy` (R97). -/
  | orReg (x y : Nibble)
  /-- 8XY2 `AND Vx, Vy` (R98). -/
  | andReg (x y : Nibble)
  /-- 8XY3 `XOR Vx, Vy` (R99). -/
  | xorReg (x y : Nibble)
  /-- 8XY4 `ADD Vx, Vy` (R100). -/
  | addReg (x y : Nibble)
  /-- 8XY5 `SUB Vx, Vy` (R101). -/
  | subReg (x y : Nibble)
  /-- 8XY6 `SHR Vx, Vy` (R102). -/
  | shr (x y : Nibble)
  /-- 8XY7 `SUBN Vx, Vy` (R103). -/
  | subn (x y : Nibble)
  /-- 8XYE `SHL Vx, Vy` (R104). -/
  | shl (x y : Nibble)
  /-- 9XY0 `SNE Vx, Vy` (R90). -/
  | sneReg (x y : Nibble)
  /-- ANNN `LD I, addr` (R107). -/
  | ldI (nnn : Addr)
  /-- BNNN `JP V0, addr` (R91). -/
  | jpV0 (nnn : Addr)
  /-- CXNN `RND Vx, NN` (R105). -/
  | rnd (x : Nibble) (nn : Byte)
  /-- DXYN `DRW Vx, Vy, N` (R115, R116). -/
  | drw (x y n : Nibble)
  /-- EX9E `SKP Vx` (R118). -/
  | skp (x : Nibble)
  /-- EXA1 `SKNP Vx` (R119). -/
  | sknp (x : Nibble)
  /-- FX07 `LD Vx, DT` (R120). -/
  | ldVxDt (x : Nibble)
  /-- FX0A `LD Vx, K` (R121). -/
  | ldVxK (x : Nibble)
  /-- FX15 `LD DT, Vx` (R122). -/
  | ldDtVx (x : Nibble)
  /-- FX18 `LD ST, Vx` (R123). -/
  | ldStVx (x : Nibble)
  /-- FX1E `ADD I, Vx` (R108). -/
  | addI (x : Nibble)
  /-- FX29 `LD F, Vx` (R109). -/
  | ldF (x : Nibble)
  /-- FX33 `LD B, Vx` (R110). -/
  | ldB (x : Nibble)
  /-- FX55 `LD [I], Vx` (R111). -/
  | storeRegs (x : Nibble)
  /-- FX65 `LD Vx, [I]` (R112). -/
  | loadRegs (x : Nibble)
  deriving DecidableEq, Repr

end Sys2Proof
end

