-- ==== Sys2Proof/Decode.lean ====
section
/-! DEFINITION. The decoder, total on any bytes, rejecting by name, and after it the encoder (30_encoding.md). -/

namespace Sys2Proof

/-! ## Fields (R59) -/

/-- `op`, bits 15:12. -/
def opField (w : Word) : Nibble := w.extractLsb' 12 4
/-- `x`, bits 11:8. -/
def xField (w : Word) : Nibble := w.extractLsb' 8 4
/-- `y`, bits 7:4. -/
def yField (w : Word) : Nibble := w.extractLsb' 4 4
/-- `n`, bits 3:0. -/
def nField (w : Word) : Nibble := w.extractLsb' 0 4
/-- `nn`, bits 7:0. -/
def nnField (w : Word) : Byte := w.extractLsb' 0 8
/-- `nnn`, bits 11:0. -/
def nnnField (w : Word) : Addr := w.extractLsb' 0 12

/-- Why bytes are no instruction: the five groups of unknown words of R63, and too few bytes. -/
inductive DecodeError where
  /-- 5XYn with n other than 0. -/
  | unknownGroup5
  /-- 8XYn with n one of 8, 9, A, B, C, D, F. -/
  | unknownGroup8
  /-- 9XYn with n other than 0. -/
  | unknownGroup9
  /-- EXnn with nn neither 9E nor A1. -/
  | unknownGroupE
  /-- FXnn with nn none of 07, 0A, 15, 18, 1E, 29, 33, 55, 65. -/
  | unknownGroupF
  /-- Fewer than two bytes. -/
  | truncated
  deriving DecidableEq, Repr

/-! ## Decoding -/

/-- Group 0 matches the whole word: 00E0, 00EE, and every other word is SYS (R62, D11). -/
def decodeGroup0 (w : Word) : Instr :=
  if w = 0x00E0#16 then .cls else if w = 0x00EE#16 then .ret else .sys (nnnField w)

/-- Group 8 decodes on `n` (R62). -/
def decodeGroup8 (w : Word) : Except DecodeError Instr :=
  match (nField w).toNat with
  | 0x0 => .ok (.ldReg (xField w) (yField w))
  | 0x1 => .ok (.orReg (xField w) (yField w))
  | 0x2 => .ok (.andReg (xField w) (yField w))
  | 0x3 => .ok (.xorReg (xField w) (yField w))
  | 0x4 => .ok (.addReg (xField w) (yField w))
  | 0x5 => .ok (.subReg (xField w) (yField w))
  | 0x6 => .ok (.shr (xField w) (yField w))
  | 0x7 => .ok (.subn (xField w) (yField w))
  | 0xE => .ok (.shl (xField w) (yField w))
  | _ => .error .unknownGroup8

/-- Group E decodes on `nn` (R62). -/
def decodeGroupE (w : Word) : Except DecodeError Instr :=
  match (nnField w).toNat with
  | 0x9E => .ok (.skp (xField w))
  | 0xA1 => .ok (.sknp (xField w))
  | _ => .error .unknownGroupE

/-- Group F decodes on `nn` (R62). -/
def decodeGroupF (w : Word) : Except DecodeError Instr :=
  match (nnField w).toNat with
  | 0x07 => .ok (.ldVxDt (xField w))
  | 0x0A => .ok (.ldVxK (xField w))
  | 0x15 => .ok (.ldDtVx (xField w))
  | 0x18 => .ok (.ldStVx (xField w))
  | 0x1E => .ok (.addI (xField w))
  | 0x29 => .ok (.ldF (xField w))
  | 0x33 => .ok (.ldB (xField w))
  | 0x55 => .ok (.storeRegs (xField w))
  | 0x65 => .ok (.loadRegs (xField w))
  | _ => .error .unknownGroupF

/-- The two-level decode of a word (R61, R62, R63, R65): first on `op`, then on the group's own field. -/
def decodeWord (w : Word) : Except DecodeError Instr :=
  match (opField w).toNat with
  | 0x0 => .ok (decodeGroup0 w)
  | 0x1 => .ok (.jp (nnnField w))
  | 0x2 => .ok (.call (nnnField w))
  | 0x3 => .ok (.seImm (xField w) (nnField w))
  | 0x4 => .ok (.sneImm (xField w) (nnField w))
  | 0x5 => if nField w = 0#4 then .ok (.seReg (xField w) (yField w)) else .error .unknownGroup5
  | 0x6 => .ok (.ldImm (xField w) (nnField w))
  | 0x7 => .ok (.addImm (xField w) (nnField w))
  | 0x8 => decodeGroup8 w
  | 0x9 => if nField w = 0#4 then .ok (.sneReg (xField w) (yField w)) else .error .unknownGroup9
  | 0xA => .ok (.ldI (nnnField w))
  | 0xB => .ok (.jpV0 (nnnField w))
  | 0xC => .ok (.rnd (xField w) (nnField w))
  | 0xD => .ok (.drw (xField w) (yField w) (nField w))
  | 0xE => decodeGroupE w
  | _ => decodeGroupF w

/-- A big-endian word of two bytes, `(hi << 8) | lo` (R46, R71). -/
def wordOfBytes (hi lo : Byte) : Word := hi ++ lo

/-- Decode the instruction at the head of a byte sequence and give the bytes after it (R58: always two bytes). -/
def decode : List Byte → Except DecodeError (Instr × List Byte)
  | hi :: lo :: rest => (decodeWord (wordOfBytes hi lo)).map fun i => (i, rest)
  | _ => .error .truncated

/-! ## Encoding (R59, R69) -/

/-- A word of four nibbles, `op x y n`. -/
def encodeXyn (op x y n : Nibble) : Word := op ++ x ++ y ++ n

/-- A word with a register and an 8-bit field, `op x nn`. -/
def encodeXnn (op x : Nibble) (nn : Byte) : Word := op ++ x ++ nn

/-- A word with an address field, `op nnn`. -/
def encodeNnn (op : Nibble) (nnn : Addr) : Word := op ++ nnn

/-- The word of an instruction, from the patterns of R69. -/
def encodeWord : Instr → Word
  | .cls => 0x00E0#16
  | .ret => 0x00EE#16
  | .sys nnn => encodeNnn 0x0#4 nnn
  | .jp nnn => encodeNnn 0x1#4 nnn
  | .call nnn => encodeNnn 0x2#4 nnn
  | .seImm x nn => encodeXnn 0x3#4 x nn
  | .sneImm x nn => encodeXnn 0x4#4 x nn
  | .seReg x y => encodeXyn 0x5#4 x y 0x0#4
  | .ldImm x nn => encodeXnn 0x6#4 x nn
  | .addImm x nn => encodeXnn 0x7#4 x nn
  | .ldReg x y => encodeXyn 0x8#4 x y 0x0#4
  | .orReg x y => encodeXyn 0x8#4 x y 0x1#4
  | .andReg x y => encodeXyn 0x8#4 x y 0x2#4
  | .xorReg x y => encodeXyn 0x8#4 x y 0x3#4
  | .addReg x y => encodeXyn 0x8#4 x y 0x4#4
  | .subReg x y => encodeXyn 0x8#4 x y 0x5#4
  | .shr x y => encodeXyn 0x8#4 x y 0x6#4
  | .subn x y => encodeXyn 0x8#4 x y 0x7#4
  | .shl x y => encodeXyn 0x8#4 x y 0xE#4
  | .sneReg x y => encodeXyn 0x9#4 x y 0x0#4
  | .ldI nnn => encodeNnn 0xA#4 nnn
  | .jpV0 nnn => encodeNnn 0xB#4 nnn
  | .rnd x nn => encodeXnn 0xC#4 x nn
  | .drw x y n => encodeXyn 0xD#4 x y n
  | .skp x => encodeXnn 0xE#4 x 0x9E#8
  | .sknp x => encodeXnn 0xE#4 x 0xA1#8
  | .ldVxDt x => encodeXnn 0xF#4 x 0x07#8
  | .ldVxK x => encodeXnn 0xF#4 x 0x0A#8
  | .ldDtVx x => encodeXnn 0xF#4 x 0x15#8
  | .ldStVx x => encodeXnn 0xF#4 x 0x18#8
  | .addI x => encodeXnn 0xF#4 x 0x1E#8
  | .ldF x => encodeXnn 0xF#4 x 0x29#8
  | .ldB x => encodeXnn 0xF#4 x 0x33#8
  | .storeRegs x => encodeXnn 0xF#4 x 0x55#8
  | .loadRegs x => encodeXnn 0xF#4 x 0x65#8

/-- The two bytes of a word as the memory holds them, the high byte first (R46). -/
def bytesOfWord (w : Word) : List Byte := [w.extractLsb' 8 8, w.extractLsb' 0 8]

/-- The bytes of an instruction in memory order (R46, R58). -/
def encode (i : Instr) : List Byte := bytesOfWord (encodeWord i)

/-! ## The opcode table (R69) -/

/-- One row of the opcode table: a word belongs to it when `word &&& mask = value` and it is not excluded. -/
structure OpcodeRow where
  mask : Word
  value : Word
  excluded : List Word
  deriving DecidableEq, Repr

/-- The row of an instruction, by the numbers of R69. -/
def Instr.row : Instr → OpcodeRow
  | .cls => ⟨0xFFFF, 0x00E0, []⟩
  | .ret => ⟨0xFFFF, 0x00EE, []⟩
  | .sys _ => ⟨0xF000, 0x0000, [0x00E0, 0x00EE]⟩
  | .jp _ => ⟨0xF000, 0x1000, []⟩
  | .call _ => ⟨0xF000, 0x2000, []⟩
  | .seImm _ _ => ⟨0xF000, 0x3000, []⟩
  | .sneImm _ _ => ⟨0xF000, 0x4000, []⟩
  | .seReg _ _ => ⟨0xF00F, 0x5000, []⟩
  | .ldImm _ _ => ⟨0xF000, 0x6000, []⟩
  | .addImm _ _ => ⟨0xF000, 0x7000, []⟩
  | .ldReg _ _ => ⟨0xF00F, 0x8000, []⟩
  | .orReg _ _ => ⟨0xF00F, 0x8001, []⟩
  | .andReg _ _ => ⟨0xF00F, 0x8002, []⟩
  | .xorReg _ _ => ⟨0xF00F, 0x8003, []⟩
  | .addReg _ _ => ⟨0xF00F, 0x8004, []⟩
  | .subReg _ _ => ⟨0xF00F, 0x8005, []⟩
  | .shr _ _ => ⟨0xF00F, 0x8006, []⟩
  | .subn _ _ => ⟨0xF00F, 0x8007, []⟩
  | .shl _ _ => ⟨0xF00F, 0x800E, []⟩
  | .sneReg _ _ => ⟨0xF00F, 0x9000, []⟩
  | .ldI _ => ⟨0xF000, 0xA000, []⟩
  | .jpV0 _ => ⟨0xF000, 0xB000, []⟩
  | .rnd _ _ => ⟨0xF000, 0xC000, []⟩
  | .drw _ _ _ => ⟨0xF000, 0xD000, []⟩
  | .skp _ => ⟨0xF0FF, 0xE09E, []⟩
  | .sknp _ => ⟨0xF0FF, 0xE0A1, []⟩
  | .ldVxDt _ => ⟨0xF0FF, 0xF007, []⟩
  | .ldVxK _ => ⟨0xF0FF, 0xF00A, []⟩
  | .ldDtVx _ => ⟨0xF0FF, 0xF015, []⟩
  | .ldStVx _ => ⟨0xF0FF, 0xF018, []⟩
  | .addI _ => ⟨0xF0FF, 0xF01E, []⟩
  | .ldF _ => ⟨0xF0FF, 0xF029, []⟩
  | .ldB _ => ⟨0xF0FF, 0xF033, []⟩
  | .storeRegs _ => ⟨0xF0FF, 0xF055, []⟩
  | .loadRegs _ => ⟨0xF0FF, 0xF065, []⟩

/-- The word belongs to the row (R69). -/
def OpcodeRow.holds (r : OpcodeRow) (w : Word) : Bool := (w &&& r.mask) == r.value && !r.excluded.contains w

/-! ## The host's view of the decoder -/

/-- The instruction word whose table bits are `w`, with every bit at or above `nbits` zero. -/
def tableWord (nbits w : Nat) : Word := BitVec.ofNat 16 (w % 2 ^ nbits)

/-- What the decoder reads from the bytes of a word numbered as the opcode table numbers it. -/
def decodeTableWord (nbits w : Nat) : Option Instr :=
  match decode (bytesOfWord (tableWord nbits w)) with
  | .ok (i, _) => some i
  | .error _ => none

end Sys2Proof
end

