-- ==== Sys2Proof/Config.lean ====
section
/-! DEFINITION. What is fixed for a block while it runs and what the spec leaves open: the construction-time
options (00_scope.md R8, R9), the sizes (R6), the rates (R7) and the free random byte (10_state.md R31).
The default font bytes stand in Sys2Proof/Machine/Font.lean. -/

namespace Sys2Proof

/-- CFG, the construction-time options (10_state.md R32). -/
structure Cfg where
  /-- Bit 0, `STRICT`: strict handling of faults (R9). -/
  strict : Bool
  /-- Bit 1, `SHIFT_USES_VY`: 8XY6 and 8XYE shift V[y] into V[x] (R8). -/
  shiftUsesVy : Bool
  /-- Bit 2, `LOADSTORE_INCREMENTS_I`: FX55 and FX65 add x+1 to I (R8). -/
  loadStoreIncrementsI : Bool
  deriving DecidableEq, Repr

/-- Every option at its default, false (R8, R9, R32). -/
def Cfg.default : Cfg :=
  { strict := false, shiftUsesVy := false, loadStoreIncrementsI := false }

/-- Memory is 4096 bytes (R6). -/
def Config.memorySize : Nat := 4096

/-- Where programs are loaded and execution starts (R6, R147). -/
def Config.loadAddress : Nat := 0x200

/-- The longest program LOAD accepts (R6, R148). -/
def Config.maxProgramSize : Nat := 3584

/-- Display columns (R6). -/
def Config.columns : Nat := 64

/-- Display rows (R6). -/
def Config.rows : Nat := 32

/-- `INSTR_RATE_HZ`, the environment's default rate of steps (R7). Nothing in the machine reads it. -/
def Config.instrRateHz : Nat := 500

/-- `TIMER_RATE_HZ`, the environment's rate of ticks (R7). Nothing in the machine reads it. -/
def Config.timerRateHz : Nat := 60

/-- The random byte of the k-th draw where the environment's byte is not given as data: a FREE value
(10_state.md R31, D12; log 2). DESIGN CHOICE: the form of the free value. Safe. -/
opaque Config.randomByte : Nat → Byte

end Sys2Proof
end

