-- ==== Sys2Proof/Machine/Font.lean ====
section
/-! DEFINITION. The default of the parameter FONT_ROM (20_memory.md R43, R44). PRESUMED: the spec gives these bytes
from general knowledge, its source does not (D23; log 1). Unsafe for a claim that reads a glyph's pixels. -/

namespace Sys2Proof

/-- Glyphs 0 to 3 (R44). -/
def Config.fontDigits0to3 : List Byte :=
  [0xF0, 0x90, 0x90, 0x90, 0xF0] ++ [0x20, 0x60, 0x20, 0x20, 0x70] ++
  [0xF0, 0x10, 0xF0, 0x80, 0xF0] ++ [0xF0, 0x10, 0xF0, 0x10, 0xF0]

/-- Glyphs 4 to 7 (R44). -/
def Config.fontDigits4to7 : List Byte :=
  [0x90, 0x90, 0xF0, 0x10, 0x10] ++ [0xF0, 0x80, 0xF0, 0x10, 0xF0] ++
  [0xF0, 0x80, 0xF0, 0x90, 0xF0] ++ [0xF0, 0x10, 0x20, 0x40, 0x40]

/-- Glyphs 8 to B (R44). -/
def Config.fontDigits8toB : List Byte :=
  [0xF0, 0x90, 0xF0, 0x90, 0xF0] ++ [0xF0, 0x90, 0xF0, 0x10, 0xF0] ++
  [0xF0, 0x90, 0xF0, 0x90, 0x90] ++ [0xE0, 0x90, 0xE0, 0x90, 0xE0]

/-- Glyphs C to F (R44). -/
def Config.fontDigitsCtoF : List Byte :=
  [0xF0, 0x80, 0x80, 0x80, 0xF0] ++ [0xE0, 0x90, 0x90, 0x90, 0xE0] ++
  [0xF0, 0x80, 0xF0, 0x80, 0xF0] ++ [0xF0, 0x80, 0xF0, 0x80, 0x80]

/-- The default FONT_ROM: 16 glyphs of 5 bytes, top row first (R43, R44). -/
def Config.fontBytes : List Byte :=
  Config.fontDigits0to3 ++ Config.fontDigits4to7 ++ Config.fontDigits8toB ++ Config.fontDigitsCtoF

/-- The default FONT_ROM has its 80 bytes (R6). -/
theorem Config.fontBytes_length : Config.fontBytes.length = 80 := by decide

/-- The default FONT_ROM as the 80-byte table RESET takes (R10, R44). -/
def Config.fontRom : Vector Byte 80 := ⟨Config.fontBytes.toArray, by simp [Config.fontBytes_length]⟩

end Sys2Proof
end

