-- ==== Sys2Proof/Machine/State.lean ====
section
/-! DEFINITION. The state of the block (10_state.md), the ways a step of the model can stop, and the state after
RESET with the default construction arguments. -/

namespace Sys2Proof.Machine

/-- STATUS.RUN (10_state.md R33, R34). The reserved value 3 is never produced and has no constructor. -/
inductive RunState where
  /-- Code 0. -/
  | running
  /-- Code 1: the last step was FX0A with no key down. -/
  | awaitingKey
  /-- Code 2: left only by RESET. -/
  | halted
  deriving DecidableEq, Repr

/-- The fault kinds of the hardware (60_exceptions.md R124). The model takes them as NEXT states (log 10). -/
inductive FaultKind where
  /-- Code 1: an unknown opcode. -/
  | decodeFault
  /-- Code 2: CALL with SP = 16. -/
  | stackOverflow
  /-- Code 3: RET with SP = 0. -/
  | stackUnderflow
  /-- Code 4: an access outside 0..4095. -/
  | memoryFault
  /-- Code 5: LOAD of more than 3584 bytes. -/
  | romTooLarge
  deriving DecidableEq, Repr

/-- The fields of STATUS (10_state.md R33). `fault = none` is code 0. Its 48-bit word is `Status.word` (log 5). -/
structure Status where
  run : RunState
  fault : Option FaultKind
  fetch : Bool
  faultPc : Word
  faultOp : Word
  deriving DecidableEq, Repr

/-- STATUS after reset: Running, no fault recorded (R33, R39). -/
def Status.reset : Status :=
  { run := .running, fault := none, fetch := false, faultPc := 0#16, faultOp := 0#16 }

/-- Memory as data: the bytes that differ from the reset contents, addresses strictly rising (log 1). -/
abbrev Memory := List Host.Cell

/-- The 64 by 32 pixels of one bit (R28), held as 32 rows of 64 bits (log 4). -/
abbrev Display := Vector (BitVec 64) 32

/-- Every pixel 0 (R39, R114). -/
def Display.clear : Display := Vector.replicate 32 0#64

/-- The state of the block (10_state.md R15 to R35, 20_memory.md R41). -/
structure State where
  /-- V0 to VF (R15). -/
  v : Vector Byte 16
  /-- The index register I (R23). -/
  i : Word
  /-- The program counter (R18). -/
  pc : Word
  /-- The stack pointer, the number of the next free slot (R24). -/
  sp : Byte
  /-- The return stack (R24). -/
  stack : Vector Word 16
  /-- The delay timer DT (R25). -/
  dt : Byte
  /-- The sound timer ST (R26). -/
  st : Byte
  /-- The keypad (R27). -/
  keys : Vector Bool 16
  /-- The display: 32 rows of 64 pixels, column c of a row being its bit c (R28; log 4). -/
  display : Display
  /-- Memory (R29, R41). -/
  mem : Memory
  /-- The construction-time options (R32). -/
  cfg : Cfg
  /-- The run state and the recorded fault (R33). -/
  status : Status
  /-- MODEL'S OWN: random bytes the environment has offered and no CXNN has taken (R31; log 2). -/
  offered : List Byte
  /-- MODEL'S OWN: how many random bytes CXNN has taken; it numbers the free value (log 2). -/
  drawn : Nat
  deriving DecidableEq, Repr

/-- The state after RESET with the default options and the default font (R39, R146). -/
def State.reset : State where
  v := Vector.replicate 16 0#8
  i := 0#16
  pc := 0x200#16
  sp := 0#8
  stack := Vector.replicate 16 0#16
  dt := 0#8
  st := 0#8
  keys := Vector.replicate 16 false
  display := Display.clear
  mem := []
  cfg := Cfg.default
  status := Status.reset
  offered := []
  drawn := 0

/-- Why the model stops. A fault of the hardware (R124) is a NEXT state, not one of these. -/
inductive Fault where
  /-- Raised by CALL and RET in a state whose SP is above 16: `stack[SP]` does not exist and the spec gives no
  effect. No run reaches such a state (R24, R79). Safe (log 7). -/
  | stackPointerOutOfRange
  deriving DecidableEq, Repr

/-- Why the model gives an instruction no meaning. No instruction of this model is refused. -/
inductive Refusal where
  /-- The form of an arm of `exec` that has no meaning yet; no arm answers it. Safe. -/
  | notModelled (mnemonic : String)
  deriving DecidableEq, Repr

/-- What a step or a meaning answers. -/
abbrev Outcome := Host.Outcome State Fault Refusal

end Sys2Proof.Machine
end

