-- ==== Sys2Proof/Machine/Memory.lean ====
section
/-! DEFINITION. Memory: one space of 4096 bytes (20_memory.md R41), held as the list of the bytes that differ from
the reset contents (log 1). -/

namespace Sys2Proof.Machine

/-- What an address reads as when the list does not name it: the contents RESET leaves with the default
FONT_ROM, the font at 0x000..0x04F and zero above it (R39, R42). -/
def Memory.blank (a : Nat) : Byte := Config.fontBytes.getD a 0

/-- The byte at an address: `MemRead(a, 1)` (R13). Callers check the bound first (R49). -/
def Memory.read : Memory → Nat → Byte
  | [], a => Memory.blank a
  | (k, b) :: m, a => if k = a then b else Memory.read m a

/-- The list without an address. -/
def Memory.erase (m : Memory) (a : Nat) : Memory := m.filter fun c => c.1 != a

/-- The list with a cell put before the first higher address. -/
def Memory.insert : Memory → Nat → Byte → Memory
  | [], a, b => [(a, b)]
  | (k, c) :: m, a, b => if a < k then (a, b) :: (k, c) :: m else (k, c) :: Memory.insert m a b

/-- `MemWrite(a, 1, b)` (R13): a byte equal to the reset contents is not listed. -/
def Memory.write (m : Memory) (a : Nat) (b : Byte) : Memory :=
  if b = Memory.blank a then m.erase a else (m.erase a).insert a b

/-- Bytes at increasing addresses from `a`, in order (R47). -/
def Memory.writeBytes (m : Memory) (a : Nat) : List Byte → Memory
  | [] => m
  | b :: bs => Memory.writeBytes (m.write a b) (a + 1) bs

/-- The `count` bytes from `a`, in order (R47). -/
def Memory.readBytes (m : Memory) (a : Nat) : Nat → List Byte
  | 0 => []
  | count + 1 => m.read a :: Memory.readBytes m (a + 1) count

/-- The word at `a` and `a + 1`, high byte first (R46). -/
def Memory.readWord (m : Memory) (a : Nat) : Word := wordOfBytes (m.read a) (m.read (a + 1))

/-- `InRange(a, n)`: every address a, …, a+n−1 lies in 0..0xFFF (R13). -/
def inRange (a n : Nat) : Bool := n == 0 || decide (a + n ≤ Config.memorySize)

/-- The canonical form, given that every address must be at least `lo`: addresses strictly rising and inside the
4096 bytes, no byte equal to the reset contents. -/
def Memory.wfFrom (lo : Nat) : Memory → Bool
  | [] => true
  | (k, b) :: m => decide (lo ≤ k) && decide (k < Config.memorySize) && b != Memory.blank k && Memory.wfFrom (k + 1) m

/-- The canonical form of a memory. -/
def Memory.wf (m : Memory) : Bool := Memory.wfFrom 0 m

/-- The cells a byte sequence from `a` needs: the bytes that differ from the reset contents. -/
def Memory.cellsFrom (a : Nat) : List Byte → Memory
  | [] => []
  | b :: bs => if b = Memory.blank a then Memory.cellsFrom (a + 1) bs else (a, b) :: Memory.cellsFrom (a + 1) bs

/-- Memory after LOAD of a program that fits: the program from 0x200, zero after it to 0xFFF, and every byte
below 0x200 as it was (R148). -/
def Memory.loadProgram (m : Memory) (rom : List Byte) : Memory :=
  (m.filter fun c => decide (c.1 < Config.loadAddress)) ++ Memory.cellsFrom Config.loadAddress rom

/-- Memory after RESET with a given FONT_ROM: the font at 0x000..0x04F, zero above it (R39, R44). -/
def Memory.ofFont (font : Vector Byte 80) : Memory := Memory.cellsFrom 0 font.toList

end Sys2Proof.Machine
end

