-- ==== Sys2Proof/Machine/Ops.lean ====
section
/-! DEFINITION. The named operations over registers, stack, fetch and STATUS that the meanings share, and the taking
of a fault (60_exceptions.md R124 to R131). -/

namespace Sys2Proof.Machine

/-! ## Registers -/

/-- `V[r]` (R12, R15). -/
def State.getV (s : State) (r : Nibble) : Byte := s.v[r.toNat]'r.isLt

/-- `V[r] <- b` (R12, R15). -/
def State.setV (s : State) (r : Nibble) (b : Byte) : State := { s with v := s.v.set r.toNat b r.isLt }

/-- VF, the flag register (R16, R22). -/
def flagReg : Nibble := 0xF#4

/-- `V[x] <- result`, then `V[0xF] <- flag`, in this order (R93, D9). -/
def State.setVThenFlag (s : State) (x : Nibble) (result flag : Byte) : State :=
  (s.setV x result).setV flagReg flag

/-- `zext_16` of a 12-bit address (R60). -/
def zext16 (a : Addr) : Word := a.setWidth 16

/-! ## The words of STATUS and CFG -/

/-- The code of RUN (R33). -/
def RunState.code : RunState → BitVec 2
  | .running => 0#2
  | .awaitingKey => 1#2
  | .halted => 2#2

/-- The code of a fault kind (R33, R124). -/
def FaultKind.code : FaultKind → BitVec 3
  | .decodeFault => 1#3
  | .stackOverflow => 2#3
  | .stackUnderflow => 3#3
  | .memoryFault => 4#3
  | .romTooLarge => 5#3

/-- The code of the FAULT field: 0 when no fault is recorded (R33). -/
def faultCode : Option FaultKind → BitVec 3
  | none => 0#3
  | some k => k.code

/-- STATUS as the host reads it: FAULT_OP in bits 47:32, FAULT_PC in 31:16, zeros in 15:6, FETCH in bit 5,
FAULT in 4:2, RUN in 1:0 (R33; log 5). -/
def Status.word (t : Status) : BitVec 48 :=
  t.faultOp ++ t.faultPc ++ 0#10 ++ BitVec.ofBool t.fetch ++ faultCode t.fault ++ t.run.code

/-- CFG as a word: LOADSTORE_INCREMENTS_I in bit 2, SHIFT_USES_VY in bit 1, STRICT in bit 0 (R32; log 5). -/
def cfgWord (c : Cfg) : BitVec 3 :=
  BitVec.ofBool c.loadStoreIncrementsI ++ BitVec.ofBool c.shiftUsesVy ++ BitVec.ofBool c.strict

/-! ## Completing an instruction -/

/-- `RUN <- r`, the recorded fault kept. -/
def State.setRun (s : State) (r : RunState) : State := { s with status := { s.status with run := r } }

/-- An instruction that ends without a fault: RUN <- Running (R75). -/
def complete (s : State) : Outcome := .next (s.setRun .running)

/-- FX0A with no key down: PC <- PC - 2 and RUN <- AwaitingKey (R75, R121). -/
def block (s : State) : Outcome := .next ({ s with pc := s.pc - 2#16 }.setRun .awaitingKey)

/-! ## Taking a fault -/

/-- Which kinds halt the block: stack faults always, the others in strict mode (R126). A fetch fault halts
in both modes and does not come here (`haltAtFetch`, R72). -/
def FaultKind.halts (strict : Bool) : FaultKind → Bool
  | .stackOverflow | .stackUnderflow => true
  | .decodeFault | .memoryFault | .romTooLarge => strict

/-- A halt: STATUS is written whole, nothing else changes (R127). -/
def State.halt (s : State) (kind : FaultKind) (fetch : Bool) (faultPc faultOp : Word) : State :=
  { s with status := ⟨.halted, some kind, fetch, faultPc, faultOp⟩ }

/-- The state after a fault raised at decode or execute, when PC = P + 2: a halt that records P and the
opcode, or nothing but RUN <- Running (R76, R126, R127, R128). -/
def State.afterFault (s : State) (kind : FaultKind) (opcode : Word) : State :=
  if kind.halts s.cfg.strict then s.halt kind false (s.pc - 2#16) opcode else s.setRun .running

/-- `raise Fault(kind)` (R13, R76): the one operation that takes a fault at decode or execute. -/
def raise (kind : FaultKind) (opcode : Word) (s : State) : Outcome := .next (s.afterFault kind opcode)

/-- The fetch fault: the block halts in both modes, PC keeps P, FETCH = 1 (R72). -/
def haltAtFetch (s : State) : State := s.halt .memoryFault true s.pc 0#16

/-! ## Fetch -/

/-- The opcode at PC, or nothing when the fetch is out of range (R71, R72). -/
def fetchWord (s : State) : Option Word :=
  if inRange s.pc.toNat 2 then some (s.mem.readWord s.pc.toNat) else none

/-- `PC <- P + 2`, made before decode (R18, R71). -/
def State.advance (s : State) : State := { s with pc := s.pc + 2#16 }

/-- The state with a word stored at PC, high byte first, where the next fetch reads it (R46, R71). -/
def State.storeAtPc (s : State) (w : Word) : State :=
  { s with mem := s.mem.writeBytes s.pc.toNat (bytesOfWord w) }

/-! ## The return stack (R24) -/

/-- `stack[SP] <- w; SP <- SP + 1`, for an SP that names a slot. -/
def State.push (s : State) (w : Word) (h : s.sp.toNat < 16) : State :=
  { s with stack := s.stack.set s.sp.toNat w h, sp := s.sp + 1#8 }

/-- `SP <- SP - 1; PC <- stack[SP]`, for an SP whose predecessor names a slot. -/
def State.popPc (s : State) (h : s.sp.toNat - 1 < 16) : State :=
  { s with sp := s.sp - 1#8, pc := s.stack[s.sp.toNat - 1]'h }

/-! ## Random bytes (R31, R78; log 2) -/

/-- `draw8()`: the next byte the environment has offered, or a free value where none is offered (R13, R31). -/
def State.draw8 (s : State) : Byte :=
  match s.offered with
  | r :: _ => r
  | [] => Config.randomByte s.drawn

/-- The draw consumed (R31). -/
def State.afterDraw (s : State) : State := { s with offered := s.offered.tail, drawn := s.drawn + 1 }

/-! ## Keypad -/

/-- `keys[k]` (R27). -/
def State.key (s : State) (k : Nibble) : Bool := s.keys[k.toNat]'k.isLt

/-- The least pressed key, `lowest_pressed()`, or nothing when no key is down (R13, R121). -/
def State.lowestPressed (s : State) : Option Nat := s.keys.toList.findIdx? id

/-! ## Skips -/

/-- The common end of the six skips: `PC <- PC + 2` when the condition holds (R81). -/
def skipIf (c : Bool) (s : State) : Outcome :=
  complete (if c then { s with pc := s.pc + 2#16 } else s)

end Sys2Proof.Machine
end

