-- ==== Sys2Proof/Machine/Operands.lean ====
section
/-! DEFINITION. The operand forms that need more than a field or a register read (30_encoding.md R60,
43_index_memory.md R106). -/

namespace Sys2Proof.Machine

/-- BNNN's target, `zext_16(nnn) + zext_16(V[0])`, not masked (R91, D26). -/
def jumpV0Target (s : State) (nnn : Addr) : Word := zext16 nnn + (s.getV 0#4).setWidth 16

/-- The value a shift reads: V[y] with SHIFT_USES_VY, else V[x] (R102, R104). -/
def shiftSource (s : State) (x y : Nibble) : Byte := if s.cfg.shiftUsesVy then s.getV y else s.getV x

/-- The low nibble of a register: a key number or a digit (R109, R118). -/
def lowNibble (b : Byte) : Nibble := b.setWidth 4

/-- The glyph address of a digit, `(V[x] & 0xF) * 5` (R109). -/
def glyphAddress (b : Byte) : Word := (lowNibble b).setWidth 16 * 5#16

/-- The decimal digits of a byte: hundreds, tens, ones (R110). -/
def decimalDigits (b : Byte) : List Byte :=
  [BitVec.ofNat 8 (b.toNat / 100), BitVec.ofNat 8 (b.toNat / 10 % 10), BitVec.ofNat 8 (b.toNat % 10)]

/-- The address an I-relative access starts at, as an exact integer (R49, R106). -/
def State.base (s : State) : Nat := s.i.toNat

/-- The check of an I-relative access of `count` bytes (R49, R106). -/
def State.iInRange (s : State) (count : Nat) : Bool := inRange s.base count

/-- The registers V0..Vx in order (R111). -/
def State.firstRegs (s : State) (x : Nibble) : List Byte := s.v.toList.take (x.toNat + 1)

/-- V0..Vx loaded from the bytes at I, I+1, …, I+x, the other registers kept (R112). -/
def State.loadFirstRegs (s : State) (x : Nibble) : State :=
  { s with v := Vector.ofFn fun k : Fin 16 => if k.val ≤ x.toNat then s.mem.read (s.base + k.val) else s.v[k.val] }

/-- `I <- (I + x + 1) & 0xFFFF` with LOADSTORE_INCREMENTS_I, else I kept (R111, R112, D25). -/
def State.bumpI (s : State) (x : Nibble) : State :=
  if s.cfg.loadStoreIncrementsI then { s with i := s.i + x.setWidth 16 + 1#16 } else s

/-! ## Sprites (R113, R115) -/

/-- The display element of a pixel, its column and row reduced (R28, R113). -/
def pixelIndex (col row : Nat) : Nat := row % Config.rows * Config.columns + col % Config.columns

/-- The elements a sprite byte touches: one for each 1 bit, bit 7 at column `ox` (R115). -/
def rowPixels (ox row : Nat) (b : Byte) : List Nat :=
  ((List.range 8).filter fun c => b.getLsbD (7 - c)).map fun c => pixelIndex (ox + c) row

/-- The elements a sprite touches, row by row from row `oy` down, each row left to right (R115). -/
def spritePixels (ox oy : Nat) : List Byte → List Nat
  | [] => []
  | b :: bs => rowPixels ox oy b ++ spritePixels ox (oy + 1) bs

/-- `display[p]`: row p / 64, column p % 64; an element above 2047 does not exist and reads 0 (R28). -/
def pixelOf (d : Display) (p : Nat) : Bool := if h : p / 64 < 32 then d[p / 64].getLsbD (p % 64) else false

/-- `display[p] <- display[p] ^ 1` (R115). -/
def togglePixel (d : Display) (p : Nat) : Display :=
  if h : p / 64 < 32 then d.set (p / 64) (d[p / 64] ^^^ BitVec.twoPow 64 (p % 64)) else d

/-- The display and the collision flag after the pixels are toggled in order: a pixel that was 1 sets the
flag (R115). -/
def drawPixels (d : Display) (hit : Bool) : List Nat → Display × Bool
  | [] => (d, hit)
  | p :: ps => drawPixels (togglePixel d p) (hit || pixelOf d p) ps

end Sys2Proof.Machine
end

