-- ==== Sys2Proof/Machine/Flags.lean ====
section
/-! DEFINITION. The results and flags of the 8-bit operations (42_alu.md R92). The operands are converted to
integers, the result is computed exactly and then reduced modulo 256. -/

namespace Sys2Proof.Machine

/-- A flag as VF holds it: 1 or 0 (R22). -/
def flagByte (b : Bool) : Byte := if b then 1#8 else 0#8

/-- `(a + b) mod 256` (R92). -/
def addResult (a b : Byte) : Byte := BitVec.ofNat 8 (a.toNat + b.toNat)

/-- The carry of 8XY4: `a + b > 0xFF` (R92, R100). -/
def carryFlag (a b : Byte) : Byte := flagByte (decide (a.toNat + b.toNat > 0xFF))

/-- `(a - b) mod 256` (R92). -/
def subResult (a b : Byte) : Byte := BitVec.ofInt 8 ((a.toNat : Int) - (b.toNat : Int))

/-- NOT-borrow: 1 when the minuend is at least the subtrahend (R92). -/
def notBorrowFlag (a b : Byte) : Byte := flagByte (decide (a.toNat ≥ b.toNat))

/-- `a >> 1` (R102). -/
def shrResult (a : Byte) : Byte := a >>> 1

/-- The bit a right shift drops, bit 0 (R102). -/
def shrFlag (a : Byte) : Byte := flagByte (a.getLsbD 0)

/-- `(a << 1) mod 256` (R104). -/
def shlResult (a : Byte) : Byte := a <<< 1

/-- The bit a left shift drops, bit 7 (R104). -/
def shlFlag (a : Byte) : Byte := flagByte (a.getLsbD 7)

end Sys2Proof.Machine
end

