-- ==== Sys2Proof/Machine/Alu.lean ====
section
/-! DEFINITION. Register arithmetic, logic and random (42_alu.md). -/

namespace Sys2Proof.Machine

/-- LD Vx, NN (R94). -/
def execLdImm (x : Nibble) (nn : Byte) (s : State) : Outcome := complete (s.setV x nn)

/-- ADD Vx, NN: no flag (R95). -/
def execAddImm (x : Nibble) (nn : Byte) (s : State) : Outcome :=
  complete (s.setV x (addResult (s.getV x) nn))

/-- LD Vx, Vy (R96). -/
def execLdReg (x y : Nibble) (s : State) : Outcome := complete (s.setV x (s.getV y))

/-- OR Vx, Vy: no flag (R97, D24). -/
def execOrReg (x y : Nibble) (s : State) : Outcome := complete (s.setV x (s.getV x ||| s.getV y))

/-- AND Vx, Vy: no flag (R98, D24). -/
def execAndReg (x y : Nibble) (s : State) : Outcome := complete (s.setV x (s.getV x &&& s.getV y))

/-- XOR Vx, Vy: no flag (R99, D24). -/
def execXorReg (x y : Nibble) (s : State) : Outcome := complete (s.setV x (s.getV x ^^^ s.getV y))

/-- ADD Vx, Vy: VF = carry, written last (R93, R100). -/
def execAddReg (x y : Nibble) (s : State) : Outcome :=
  complete (s.setVThenFlag x (addResult (s.getV x) (s.getV y)) (carryFlag (s.getV x) (s.getV y)))

/-- SUB Vx, Vy: VF = NOT-borrow, written last (R93, R101). -/
def execSubReg (x y : Nibble) (s : State) : Outcome :=
  complete (s.setVThenFlag x (subResult (s.getV x) (s.getV y)) (notBorrowFlag (s.getV x) (s.getV y)))

/-- SHR Vx, Vy: VF = bit 0 of the value shifted, written last (R93, R102). -/
def execShr (x y : Nibble) (s : State) : Outcome :=
  complete (s.setVThenFlag x (shrResult (shiftSource s x y)) (shrFlag (shiftSource s x y)))

/-- SUBN Vx, Vy: V[y] - V[x], VF = NOT-borrow, written last (R93, R103). -/
def execSubn (x y : Nibble) (s : State) : Outcome :=
  complete (s.setVThenFlag x (subResult (s.getV y) (s.getV x)) (notBorrowFlag (s.getV y) (s.getV x)))

/-- SHL Vx, Vy: VF = bit 7 of the value shifted, written last (R93, R104). -/
def execShl (x y : Nibble) (s : State) : Outcome :=
  complete (s.setVThenFlag x (shlResult (shiftSource s x y)) (shlFlag (shiftSource s x y)))

/-- RND Vx, NN: the byte drawn, masked (R105; the byte is free, log 2). -/
def execRnd (x : Nibble) (nn : Byte) (s : State) : Outcome :=
  complete (s.afterDraw.setV x (s.draw8 &&& nn))

end Sys2Proof.Machine
end

