-- ==== Sys2Proof/Machine/Display.lean ====
section
/-! DEFINITION. Display instructions (44_display.md). -/

namespace Sys2Proof.Machine

/-- CLS: every pixel 0, VF kept (R114). -/
def execCls (s : State) : Outcome := complete { s with display := Display.clear }

/-- The elements DRW toggles in a state whose VF is already cleared: the coordinates are read after that
(R115 step 2, D29). -/
def drawList (s : State) (x y n : Nibble) : List Nat :=
  spritePixels ((s.getV x).toNat % Config.columns) ((s.getV y).toNat % Config.rows)
    (s.mem.readBytes s.base n.toNat)

/-- The sprite drawn in a state whose VF is already cleared: the display toggled and VF the collision flag
(R115 step 3). -/
def State.drawSprite (s : State) (x y n : Nibble) : State :=
  ({ s with display := (drawPixels s.display false (drawList s x y n)).1 } : State).setV flagReg
    (flagByte (drawPixels s.display false (drawList s x y n)).2)

/-- DRW Vx, Vy, N: range check, VF <- 0, then the sprite; N = 0 only clears VF (R115, R116). -/
def execDrw (x y n : Nibble) (s : State) : Outcome :=
  if s.iInRange n.toNat then complete ((s.setV flagReg 0#8).drawSprite x y n)
  else raise .memoryFault (encodeWord (.drw x y n)) s

end Sys2Proof.Machine
end

