-- ==== Sys2Proof/Machine/Flow.lean ====
section
/-! DEFINITION. Control transfer and skips (41_flow.md). A meaning runs with PC = P + 2 (R74). -/

namespace Sys2Proof.Machine

/-- RET (R82). An SP above 16 is in no run (log 7). -/
def execRet (s : State) : Outcome :=
  if s.sp = 0#8 then raise .stackUnderflow (encodeWord .ret) s
  else if h : s.sp.toNat - 1 < 16 then complete (s.popPc h)
  else .fault .stackPointerOutOfRange

/-- SYS addr: does nothing (R83). -/
def execSys (_nnn : Addr) (s : State) : Outcome := complete s

/-- JP addr (R84). -/
def execJp (nnn : Addr) (s : State) : Outcome := complete { s with pc := zext16 nnn }

/-- CALL addr (R85). An SP above 16 is in no run (log 7). -/
def execCall (nnn : Addr) (s : State) : Outcome :=
  if s.sp = 16#8 then raise .stackOverflow (encodeWord (.call nnn)) s
  else if h : s.sp.toNat < 16 then complete { s.push s.pc h with pc := zext16 nnn }
  else .fault .stackPointerOutOfRange

/-- SE Vx, NN (R87). -/
def execSeImm (x : Nibble) (nn : Byte) (s : State) : Outcome := skipIf (s.getV x == nn) s

/-- SNE Vx, NN (R88). -/
def execSneImm (x : Nibble) (nn : Byte) (s : State) : Outcome := skipIf (s.getV x != nn) s

/-- SE Vx, Vy (R89). -/
def execSeReg (x y : Nibble) (s : State) : Outcome := skipIf (s.getV x == s.getV y) s

/-- SNE Vx, Vy (R90). -/
def execSneReg (x y : Nibble) (s : State) : Outcome := skipIf (s.getV x != s.getV y) s

/-- JP V0, addr (R91). -/
def execJpV0 (nnn : Addr) (s : State) : Outcome := complete { s with pc := jumpV0Target s nnn }

end Sys2Proof.Machine
end

