-- ==== Sys2Proof/Machine/Index.lean ====
section
/-! DEFINITION. The index register and memory transfers (43_index_memory.md). -/

namespace Sys2Proof.Machine

/-- LD I, addr (R107). -/
def execLdI (nnn : Addr) (s : State) : Outcome := complete { s with i := zext16 nnn }

/-- ADD I, Vx: modulo 2^16, no flag (R108, D24). -/
def execAddI (x : Nibble) (s : State) : Outcome := complete { s with i := s.i + (s.getV x).setWidth 16 }

/-- LD F, Vx (R109). -/
def execLdF (x : Nibble) (s : State) : Outcome := complete { s with i := glyphAddress (s.getV x) }

/-- LD B, Vx: the range is checked before any write (R106, R110). -/
def execLdB (x : Nibble) (s : State) : Outcome :=
  if s.iInRange 3 then complete { s with mem := s.mem.writeBytes s.base (decimalDigits (s.getV x)) }
  else raise .memoryFault (encodeWord (.ldB x)) s

/-- LD [I], Vx: V0..Vx, inclusive of x (R106, R111). -/
def execStoreRegs (x : Nibble) (s : State) : Outcome :=
  if s.iInRange (x.toNat + 1) then
    complete (({ s with mem := s.mem.writeBytes s.base (s.firstRegs x) } : State).bumpI x)
  else raise .memoryFault (encodeWord (.storeRegs x)) s

/-- LD Vx, [I]: V0..Vx, inclusive of x (R106, R112). -/
def execLoadRegs (x : Nibble) (s : State) : Outcome :=
  if s.iInRange (x.toNat + 1) then complete ((s.loadFirstRegs x).bumpI x)
  else raise .memoryFault (encodeWord (.loadRegs x)) s

end Sys2Proof.Machine
end

