-- ==== Sys2Proof/Machine/KeysTimers.lean ====
section
/-! DEFINITION. Keypad and timer instructions (45_keys_timers.md). -/

namespace Sys2Proof.Machine

/-- SKP Vx (R118). -/
def execSkp (x : Nibble) (s : State) : Outcome := skipIf (s.key (lowNibble (s.getV x))) s

/-- SKNP Vx (R119). -/
def execSknp (x : Nibble) (s : State) : Outcome := skipIf (!s.key (lowNibble (s.getV x))) s

/-- LD Vx, DT (R120). -/
def execLdVxDt (x : Nibble) (s : State) : Outcome := complete (s.setV x s.dt)

/-- LD Vx, K: the lowest key down, or the instruction again (R121, D28). -/
def execLdVxK (x : Nibble) (s : State) : Outcome :=
  match s.lowestPressed with
  | some k => complete (s.setV x (BitVec.ofNat 8 k))
  | none => block s

/-- LD DT, Vx (R122). -/
def execLdDtVx (x : Nibble) (s : State) : Outcome := complete { s with dt := s.getV x }

/-- LD ST, Vx (R123). -/
def execLdStVx (x : Nibble) (s : State) : Outcome := complete { s with st := s.getV x }

end Sys2Proof.Machine
end

