-- ==== Sys2Proof/Machine/Step.lean ====
section
/-! DEFINITION. The STEP transaction: one fetch, one decode, one execute (40_cycle.md R70, R76). Its random byte is
`State.draw8` (log 2). -/

namespace Sys2Proof.Machine

/-- Decode and execute an opcode already fetched, PC = P + 2 (R73, R74). -/
def decodeAndExec (opcode : Word) (s : State) : Host.Outcome State Fault Refusal :=
  match decodeWord opcode with
  | .ok i => exec i s
  | .error _ => raise .decodeFault opcode s

/-- One instruction cycle (R76). A halted block does nothing (R70). -/
def step (s : State) : Host.Outcome State Fault Refusal :=
  if s.status.run = .halted then .next s
  else
    match fetchWord s with
    | none => .next (haltAtFetch s)
    | some opcode => decodeAndExec opcode s.advance

/-- The state with an instruction word, numbered as the opcode table numbers it, stored at PC (log 11). -/
def State.withFetchWord (s : State) (nbits w : Nat) : State := s.storeAtPc (tableWord nbits w)

end Sys2Proof.Machine
end

