-- ==== Sys2Proof/Machine/Transactions.lean ====
section
/-! DEFINITION. The block's interface: the six atomic transactions of 10_state.md R37. Their order is a free input
(70_reset_and_hazards.md R153), here a list (log 3). -/

namespace Sys2Proof.Machine

/-- RESET with the construction arguments and a FONT_ROM (R146, R10). The model's own fields are reset with it (log 2). -/
def State.resetWith (font : Vector Byte 80) (cfg : Cfg) : State :=
  { State.reset with mem := Memory.ofFont font, cfg := cfg }

/-- LOAD accepts the program: at most 3584 bytes (R148). -/
def loadFits (rom : List Byte) : Bool := decide (rom.length ≤ Config.maxProgramSize)

/-- LOAD(rom): the program placed, or rejected with nothing written, and in strict mode a halt with no
address or opcode recorded (R129, R148, D15, D16). -/
def State.load (s : State) (rom : List Byte) : State :=
  if loadFits rom then { s with mem := s.mem.loadProgram rom }
  else if FaultKind.halts s.cfg.strict .romTooLarge then s.halt .romTooLarge false 0#16 0#16
  else s

/-- What LOAD returns to the host (R129, R148). -/
def loadResult (rom : List Byte) : Except FaultKind Unit :=
  if loadFits rom then .ok () else .error .romTooLarge

/-- A down-counter's tick: one less, never below 0 (R137). -/
def countDown (b : Byte) : Byte := if b = 0#8 then 0#8 else b - 1#8

/-- TICK, in every run state (R137). -/
def State.tick (s : State) : State := { s with dt := countDown s.dt, st := countDown s.st }

/-- KEY(k, down) (R139). -/
def State.keyEvent (s : State) (k : Nibble) (down : Bool) : State :=
  { s with keys := s.keys.set k.toNat down k.isLt }

/-- The sound gate, on exactly while ST > 0 (R141). -/
def State.soundOn (s : State) : Bool := decide (s.st.toNat > 0)

/-- What READ returns (R37, R140, R141, R142). -/
structure Readout where
  /-- The 2048 pixels (R28, R140). -/
  display : Display
  /-- The sound gate (R141). -/
  soundOn : Bool
  /-- STATUS (R33, R142). -/
  status : BitVec 48
  deriving DecidableEq, Repr

/-- READ: it returns a report and changes nothing (R140, R142). -/
def State.readout (s : State) : Readout :=
  { display := s.display, soundOn := s.soundOn, status := s.status.word }

/-- STEP(r): one step whose random byte is r, used only if the instruction is CXNN (R37, R78). What the environment
had offered before is offered after it (log 2). -/
def stepWith (r : Byte) (s : State) : Outcome :=
  match step { s with offered := [r] } with
  | .next t => .next { t with offered := s.offered }
  | .fault f => .fault f
  | .refused f => .refused f

/-- The transactions of R37. -/
inductive Transaction where
  | reset (cfg : Cfg)
  | load (rom : List Byte)
  | step (r : Byte)
  | tick
  | key (k : Nibble) (down : Bool)
  | read
  deriving DecidableEq, Repr

/-- The effect of one transaction on the state (R36, R37), for a block whose FONT_ROM is `font` (R10). -/
def transact (font : Vector Byte 80) (t : Transaction) (s : State) : Outcome :=
  match t with
  | .reset cfg => .next (State.resetWith font cfg)
  | .load rom => .next (s.load rom)
  | .step r => stepWith r s
  | .tick => .next s.tick
  | .key k down => .next (s.keyEvent k down)
  | .read => .next s

/-- A sequence of transactions, in order, up to the first stop of the model (R36, R153). -/
def transactAll (font : Vector Byte 80) : List Transaction → State → Outcome
  | [], s => .next s
  | t :: ts, s =>
    match transact font t s with
    | .next s' => transactAll font ts s'
    | .fault f => .fault f
    | .refused f => .refused f

/-- `TICKS_PER_TIMER` of the cooperative schedule (R154): steps between two ticks, at least 1. -/
def ticksPerTimer (rate : Nat) : Nat := max 1 (rate / Config.timerRateHz)

/-- A schedule of steps with the random bytes given, in order: `left` steps, then a step with a TICK after it, and
from there a TICK after every `period` steps (R154). -/
def cooperativeFrom (period : Nat) : Nat → List Byte → List Transaction
  | _, [] => []
  | 0, r :: rs => .step r :: .tick :: cooperativeFrom period (period - 1) rs
  | left + 1, r :: rs => .step r :: cooperativeFrom period left rs

/-- The cooperative schedule at a rate of steps: a TICK after every `TICKS_PER_TIMER` steps (R154; an option, log 9). -/
def cooperativeSchedule (rate : Nat) (draws : List Byte) : List Transaction :=
  cooperativeFrom (ticksPerTimer rate) (ticksPerTimer rate - 1) draws

/-- The random byte of a STEP (R37). -/
def Transaction.stepByte : Transaction → Option Byte
  | .step r => some r
  | .reset _ | .load _ | .tick | .key _ _ | .read => none

end Sys2Proof.Machine
end

