-- ==== Sys2Proof/Safety.lean ====
section
/-! DEFINITION. The terms the claims use: the invariant of every reachable state (40_cycle.md R79), the parts of the
state for frames, and the instructions that can fault or skip. -/

namespace Sys2Proof.Machine

/-- The invariant of R79, with the bound on stack slots it needs (R85: a pushed value is at most 0x1000) and the
canonical form of memory. -/
def State.Inv (s : State) : Prop :=
  s.sp.toNat ≤ 16 ∧ s.pc.toNat ≤ 0x10FE ∧ (∀ j : Fin 16, s.stack[j.val].toNat ≤ 0x1000) ∧ s.mem.wf = true

/-- A part of the state that a frame can keep or give up. -/
inductive Part where
  /-- A general register (R15). -/
  | v (r : Nibble)
  /-- I (R23). -/
  | i
  /-- PC (R18). -/
  | pc
  /-- SP (R24). -/
  | sp
  /-- A stack slot (R24). -/
  | slot (j : Fin 16)
  /-- DT (R25). -/
  | dt
  /-- ST (R26). -/
  | st
  /-- A key (R27). -/
  | key (k : Nibble)
  /-- A display element (R28). -/
  | pixel (p : Nat)
  /-- A byte of memory, as a read of it (R29). -/
  | byte (a : Nat)
  /-- CFG (R32). -/
  | cfg
  /-- STATUS.RUN (R34). -/
  | run
  /-- The fault fields of STATUS (R33). -/
  | faultRecord
  /-- The model's own bookkeeping of random bytes (log 2). -/
  | draws
  deriving DecidableEq

/-- The part is the same in both states. -/
def Part.same (s t : State) : Part → Prop
  | .v r => t.getV r = s.getV r
  | .i => t.i = s.i
  | .pc => t.pc = s.pc
  | .sp => t.sp = s.sp
  | .slot j => t.stack[j.val] = s.stack[j.val]
  | .dt => t.dt = s.dt
  | .st => t.st = s.st
  | .key k => t.key k = s.key k
  | .pixel p => pixelOf t.display p = pixelOf s.display p
  | .byte a => t.mem.read a = s.mem.read a
  | .cfg => t.cfg = s.cfg
  | .run => t.status.run = s.status.run
  | .faultRecord => t.status.fault = s.status.fault ∧ t.status.fetch = s.status.fetch ∧
      t.status.faultPc = s.status.faultPc ∧ t.status.faultOp = s.status.faultOp
  | .draws => t.offered = s.offered ∧ t.drawn = s.drawn

/-- Every part outside `changed` is the same in both states. -/
def FrameExcept (changed : Part → Prop) (s t : State) : Prop := ∀ p, ¬ changed p → p.same s t

/-- The instruction, as the block sees it, is the one a running block would execute next: PC names it and it is the
reading of the word there. -/
def State.nextInstr (s : State) (i : Instr) : Prop :=
  s.status.run ≠ .halted ∧ ∃ w, fetchWord s = some w ∧ decodeWord w = .ok i

end Sys2Proof.Machine

namespace Sys2Proof

/-- Whether the instruction is one of the six skips and takes it in this state (R19, R81). -/
def Instr.skipTaken (s : Machine.State) : Instr → Bool
  | .seImm x nn => s.getV x == nn
  | .sneImm x nn => s.getV x != nn
  | .seReg x y => s.getV x == s.getV y
  | .sneReg x y => s.getV x != s.getV y
  | .skp x => s.key ((s.getV x).setWidth 4)
  | .sknp x => !s.key ((s.getV x).setWidth 4)
  | .cls | .ret | .sys _ | .jp _ | .call _ | .ldImm _ _ | .addImm _ _ | .ldReg _ _ | .orReg _ _
  | .andReg _ _ | .xorReg _ _ | .addReg _ _ | .subReg _ _ | .shr _ _ | .subn _ _ | .shl _ _ | .ldI _
  | .jpV0 _ | .rnd _ _ | .drw _ _ _ | .ldVxDt _ | .ldVxK _ | .ldDtVx _ | .ldStVx _ | .addI _ | .ldF _
  | .ldB _ | .storeRegs _ | .loadRegs _ => false

/-- The four instructions that give PC a target of their own (R19). -/
def Instr.jumps : Instr → Bool
  | .ret | .jp _ | .call _ | .jpV0 _ => true
  | .cls | .sys _ | .seImm _ _ | .sneImm _ _ | .seReg _ _ | .ldImm _ _ | .addImm _ _ | .ldReg _ _ | .orReg _ _
  | .andReg _ _ | .xorReg _ _ | .addReg _ _ | .subReg _ _ | .shr _ _ | .subn _ _ | .shl _ _ | .sneReg _ _
  | .ldI _ | .rnd _ _ | .drw _ _ _ | .skp _ | .sknp _ | .ldVxDt _ | .ldVxK _ | .ldDtVx _ | .ldStVx _
  | .addI _ | .ldF _ | .ldB _ | .storeRegs _ | .loadRegs _ => false

/-- How many bytes from I the instruction accesses, for the four that access memory (R106, R124). -/
def Instr.accessCount : Instr → Option Nat
  | .drw _ _ n => some n.toNat
  | .ldB _ => some 3
  | .storeRegs x | .loadRegs x => some (x.toNat + 1)
  | .cls | .ret | .sys _ | .jp _ | .call _ | .seImm _ _ | .sneImm _ _ | .seReg _ _ | .ldImm _ _
  | .addImm _ _ | .ldReg _ _ | .orReg _ _ | .andReg _ _ | .xorReg _ _ | .addReg _ _ | .subReg _ _
  | .shr _ _ | .subn _ _ | .shl _ _ | .sneReg _ _ | .ldI _ | .jpV0 _ | .rnd _ _ | .skp _ | .sknp _
  | .ldVxDt _ | .ldVxK _ | .ldDtVx _ | .ldStVx _ | .addI _ | .ldF _ => none

/-- The column "reads" of R17: the general registers whose value the instruction uses. -/
def Instr.readsV (c : Cfg) (r : Nibble) : Instr → Bool
  | .seImm x _ | .sneImm x _ | .skp x | .sknp x | .ldDtVx x | .ldStVx x | .addI x | .ldF x | .ldB x
  | .addImm x _ => r == x
  | .seReg x y | .sneReg x y | .orReg x y | .andReg x y | .xorReg x y | .addReg x y | .subReg x y
  | .subn x y | .drw x y _ => r == x || r == y
  | .ldReg _ y => r == y
  | .shr x y | .shl x y => if c.shiftUsesVy then r == y else r == x
  | .jpV0 _ => r == 0#4
  | .storeRegs x => decide (r.toNat ≤ x.toNat)
  | .ldImm _ _ | .rnd _ _ | .ldVxDt _ | .ldVxK _ | .loadRegs _ | .cls | .ret | .sys _ | .jp _ | .call _
  | .ldI _ => false

/-- The column "writes" of R17: the general registers the instruction may write. -/
def Instr.writesV (r : Nibble) : Instr → Bool
  | .ldImm x _ | .addImm x _ | .ldReg x _ | .orReg x _ | .andReg x _ | .xorReg x _ | .rnd x _
  | .ldVxDt x | .ldVxK x => r == x
  | .addReg x _ | .subReg x _ | .subn x _ | .shr x _ | .shl x _ => r == x || r == 0xF#4
  | .drw _ _ _ => r == 0xF#4
  | .loadRegs x => decide (r.toNat ≤ x.toNat)
  | .seImm _ _ | .sneImm _ _ | .skp _ | .sknp _ | .ldDtVx _ | .ldStVx _ | .addI _ | .ldF _ | .ldB _
  | .seReg _ _ | .sneReg _ _ | .jpV0 _ | .storeRegs _ | .cls | .ret | .sys _ | .jp _ | .call _
  | .ldI _ => false

end Sys2Proof
end

