-- ==== Sys2Proof/Certificates/Slice0/Obligations.lean ====
section
/-! DEFINITION. The statements for the provers. Each docstring names the rule of spec/ it formalises. A statement that
rests on a point the spec settles by a decision of its own (D<n> of 92_eei_decisions.md) says so. -/

open Sys2Proof Sys2Proof.Machine

/-! ## Encoding -/

/-- Every well-formed instruction's two bytes decode to it, with every operand at every value, and the decoder takes
no further byte (R58, R59, R69). -/
def Obligations.DecodeInvertsEncode : Prop :=
  ∀ (i : Instr) (rest : List Byte), i.wellFormed = true → decode (encode i ++ rest) = .ok (i, rest)

/-- Whatever the decoder accepts is the encoding of what it answers: no bit of a valid word is dropped (R59, R64,
R69). The model records FAULT_OP by this fact (log 6). -/
def Obligations.EncodeInvertsDecode : Prop :=
  ∀ (bytes rest : List Byte) (i : Instr), decode bytes = .ok (i, rest) →
    i.wellFormed = true ∧ bytes = encode i ++ rest

/-- The unknown words are exactly the five groups of R63, each rejected under its own name. Group 0 has none by
the spec's decision D11. -/
def Obligations.UnknownWordsAreThoseOfR63 : Prop :=
  ∀ w : Word,
    (decodeWord w = .error .unknownGroup5 ↔ opField w = 0x5#4 ∧ nField w ≠ 0#4) ∧
    (decodeWord w = .error .unknownGroup8 ↔
      opField w = 0x8#4 ∧ nField w ∈ [0x8#4, 0x9#4, 0xA#4, 0xB#4, 0xC#4, 0xD#4, 0xF#4]) ∧
    (decodeWord w = .error .unknownGroup9 ↔ opField w = 0x9#4 ∧ nField w ≠ 0#4) ∧
    (decodeWord w = .error .unknownGroupE ↔ opField w = 0xE#4 ∧ nnField w ∉ [0x9E#8, 0xA1#8]) ∧
    (decodeWord w = .error .unknownGroupF ↔ opField w = 0xF#4 ∧
      nnField w ∉ [0x07#8, 0x0A#8, 0x15#8, 0x18#8, 0x1E#8, 0x29#8, 0x33#8, 0x55#8, 0x65#8]) ∧
    decodeWord w ≠ .error .truncated

/-- A word belongs to a row of the opcode table exactly when it decodes to an instruction of that row, so no word
belongs to two rows and a word of no row is unknown (R69). -/
def Obligations.DecodeFollowsOpcodeTable : Prop :=
  ∀ (w : Word) (j : Instr),
    (w &&& j.row.mask = j.row.value ∧ w ∉ j.row.excluded) ↔ ∃ i, decodeWord w = .ok i ∧ i.row = j.row

/-- Words written out from the patterns of R69, one or more a family, decode to their instruction. -/
def Obligations.SampleWordsDecode : Prop :=
  decodeWord 0x00E0 = .ok .cls ∧ decodeWord 0x00EE = .ok .ret ∧ decodeWord 0x01E0 = .ok (.sys 0x1E0) ∧
  decodeWord 0x2204 = .ok (.call 0x204) ∧ decodeWord 0x5120 = .ok (.seReg 1 2) ∧
  decodeWord 0x7220 = .ok (.addImm 2 0x20) ∧ decodeWord 0x8016 = .ok (.shr 0 1) ∧
  decodeWord 0x801E = .ok (.shl 0 1) ∧ decodeWord 0xA300 = .ok (.ldI 0x300) ∧
  decodeWord 0xC30F = .ok (.rnd 3 0x0F) ∧ decodeWord 0xD015 = .ok (.drw 0 1 5) ∧
  decodeWord 0xE29E = .ok (.skp 2) ∧ decodeWord 0xF30A = .ok (.ldVxK 3) ∧
  decodeWord 0xF265 = .ok (.loadRegs 2) ∧ decodeWord 0x5121 = .error .unknownGroup5

/-! ## The step -/

/-- When a running block's PC names two bytes of memory whose big-endian word decodes to an instruction, a step is
that instruction's meaning at the state with PC = P + 2 and nothing else changed (R71, R73, R74, R76). -/
def Obligations.StepRunsDecodedInstruction : Prop :=
  ∀ (s : State) (i : Instr), s.status.run ≠ .halted → s.pc.toNat ≤ 0xFFE →
    decodeWord (s.mem.read s.pc.toNat ++ s.mem.read (s.pc.toNat + 1)) = .ok i →
    step s = exec i { s with pc := s.pc + 2 }

/-- A word placed at PC by `withFetchWord` is the one the next step runs, on any running state whose PC can be
fetched from (R46, R71). -/
def Obligations.StoredWordIsTheOneFetched : Prop :=
  ∀ (s : State) (nbits w : Nat) (i : Instr), s.status.run ≠ .halted → s.pc.toNat ≤ 0xFFE →
    decodeTableWord nbits w = some i →
    step (s.withFetchWord nbits w) = exec i { s.withFetchWord nbits w with pc := s.pc + 2 } ∧
    FrameExcept (fun p => p = .byte s.pc.toNat ∨ p = .byte (s.pc.toNat + 1)) s (s.withFetchWord nbits w)

/-- An unknown opcode: in lenient mode the step only passes it, in strict mode the block halts with DecodeFault, P and
the opcode recorded (R73, R126, R127, R128; the state left is the spec's decision D13). -/
def Obligations.UnknownOpcodeIsSkippedOrHalts : Prop :=
  ∀ (s : State) (w : Word) (e : DecodeError), s.status.run ≠ .halted → s.pc.toNat ≤ 0xFFE →
    w = s.mem.read s.pc.toNat ++ s.mem.read (s.pc.toNat + 1) → decodeWord w = .error e →
    (s.cfg.strict = false →
      step s = .next { s with pc := s.pc + 2, status := { s.status with run := .running } }) ∧
    (s.cfg.strict = true →
      step s = .next { s with pc := s.pc + 2, status := ⟨.halted, some .decodeFault, false, s.pc, w⟩ })

/-- A fetch at 0xFFF or above halts the block in both modes and changes nothing but STATUS (R50, R72; the spec's
decision D6). -/
def Obligations.FetchFaultHaltsInBothModes : Prop :=
  ∀ s : State, s.status.run ≠ .halted → s.pc.toNat ≥ 0xFFF →
    step s = .next { s with status := ⟨.halted, some .memoryFault, true, s.pc, 0⟩ }

/-- A step of a halted block changes nothing, whatever its random byte (R70, R79; the spec's decision D14). -/
def Obligations.HaltedStepChangesNothing : Prop :=
  ∀ (s : State) (r : Byte), s.status.run = .halted → step s = .next s ∧ stepWith r s = .next s

/-- A fault raised at decode or execute in each mode: stack faults always halt, DecodeFault and MemoryFault halt in strict mode
and otherwise have only the fetch's effect (R126, R127, R128; the state left is the spec's decision D13). FAULT_PC is PC - 2,
the P of a step (log 6). RomTooLarge is raised by LOAD alone and is in `OversizedLoadIsRejected`. -/
def Obligations.FaultHandlingByMode : Prop :=
  ∀ (kind : FaultKind) (opcode : Word) (s : State), kind ≠ .romTooLarge →
    ((kind = .stackOverflow ∨ kind = .stackUnderflow ∨ s.cfg.strict = true) →
      raise kind opcode s = .next { s with status := ⟨.halted, some kind, false, s.pc - 2, opcode⟩ }) ∧
    (¬(kind = .stackOverflow ∨ kind = .stackUnderflow ∨ s.cfg.strict = true) →
      raise kind opcode s = .next { s with status := { s.status with run := .running } })

/-! ## Whole-machine rules -/

/-- In every state whose SP is at most 16 a step answers a next state, and in no state is an instruction refused
(R24, R65, R125). -/
def Obligations.StepAnswersNext : Prop :=
  (∀ s : State, s.sp.toNat ≤ 16 → ∃ t, step s = .next t) ∧ ∀ (s : State) (r : Refusal), step s ≠ .refused r

/-- The state after reset meets the invariant of R79. It is what RESET leaves with the default options and the default
FONT_ROM, the model's own fields being empty and 0 (the model's choices: log 1, log 2, log 8). -/
def Obligations.ResetMeetsInvariant : Prop :=
  State.Inv State.reset ∧ State.resetWith Config.fontRom Cfg.default = State.reset

/-- Every step keeps SP in 0..16, PC at most 0x10FE, every stack slot at most 0x1000 and memory canonical (R79). -/
def Obligations.StepKeepsInvariant : Prop :=
  ∀ s t : State, State.Inv s → step s = .next t → State.Inv t

/-- Any sequence of transactions, in any order and for any FONT_ROM, runs through from a state of the invariant and
keeps it (R36, R79, R153). -/
def Obligations.TransactionsKeepInvariant : Prop :=
  ∀ (font : Vector Byte 80) (ts : List Transaction) (s : State), State.Inv s →
    ∃ t, transactAll font ts s = .next t ∧ State.Inv t

/-- After a step that does not halt, PC holds one of the values R19 lists, each only for what it is listed for: P + 2 for an
unknown word and for an instruction that is no jump, no taken skip and no FX0A without a key, P + 4 for a taken skip, the
target for the four jumps, and P for FX0A with no key down. -/
def Obligations.PcAfterStepIsOneOfR19 : Prop :=
  ∀ s t : State, s.status.run ≠ .halted → step s = .next t → t.status.run ≠ .halted →
    ∃ w, fetchWord s = some w ∧
      ((t.pc = s.pc + 2 ∧ ((∃ e, decodeWord w = .error e) ∨
          ∃ i, decodeWord w = .ok i ∧ i.jumps = false ∧ i.skipTaken s = false ∧
            ∀ x, i = .ldVxK x → ∃ k, s.key k = true)) ∨
       (t.pc = s.pc + 4 ∧ ∃ i, decodeWord w = .ok i ∧ i.skipTaken s = true) ∨
       (∃ nnn, (decodeWord w = .ok (.jp nnn) ∨ decodeWord w = .ok (.call nnn)) ∧ t.pc.toNat = nnn.toNat) ∨
       (∃ nnn, decodeWord w = .ok (.jpV0 nnn) ∧ t.pc.toNat = nnn.toNat + (s.getV 0#4).toNat) ∨
       (decodeWord w = .ok .ret ∧ ∃ h : s.sp.toNat - 1 < 16, 0 < s.sp.toNat ∧ t.pc = s.stack[s.sp.toNat - 1]'h) ∨
       (t.pc = s.pc ∧ (∀ k, s.key k = false) ∧ ∃ x, decodeWord w = .ok (.ldVxK x)))

/-- A step that halts is precise: nothing changed but the fetch's PC + 2 (not even that for a fetch fault) and STATUS,
which records the kind, P and the opcode, and the kind's cause of R124 holds (R124, R127, R130; the spec's decisions
D5, D6, D13). -/
def Obligations.HaltingStepIsPrecise : Prop :=
  ∀ s t : State, s.status.run ≠ .halted → step s = .next t → t.status.run = .halted →
    (s.pc.toNat ≥ 0xFFF ∧ t = { s with status := ⟨.halted, some .memoryFault, true, s.pc, 0⟩ }) ∨
    ∃ w kind, fetchWord s = some w ∧
      t = { s with pc := s.pc + 2, status := ⟨.halted, some kind, false, s.pc, w⟩ } ∧
      ((kind = .decodeFault ∧ s.cfg.strict = true ∧ ∃ e, decodeWord w = .error e) ∨
       (kind = .stackOverflow ∧ s.sp.toNat = 16 ∧ ∃ nnn, decodeWord w = .ok (.call nnn)) ∨
       (kind = .stackUnderflow ∧ s.sp.toNat = 0 ∧ decodeWord w = .ok .ret) ∨
       (kind = .memoryFault ∧ s.cfg.strict = true ∧
         ∃ i count, decodeWord w = .ok i ∧ i.accessCount = some count ∧ 0 < count ∧ s.i.toNat + count > 4096))

/-- The four instructions that access memory, when an address I + k is above 0xFFF: nothing is accessed and I is not
changed; strict mode halts with MemoryFault, lenient mode goes on (R49, R106, R126, R128; the spec's decision
D5). FAULT_PC and FAULT_OP are PC - 2 and the instruction's encoding, as log 6 has them. -/
def Obligations.OutOfRangeAccessDoesNothing : Prop :=
  ∀ (i : Instr) (count : Nat) (s : State), i.accessCount = some count → 0 < count → s.i.toNat + count > 4096 →
    (s.cfg.strict = true →
      exec i s = .next { s with status := ⟨.halted, some .memoryFault, false, s.pc - 2, encodeWord i⟩ }) ∧
    (s.cfg.strict = false → exec i s = .next { s with status := { s.status with run := .running } })

/-- STATUS is a report: two running states that differ only in STATUS step to states that differ only in it, with the
same RUN (R33, R34; the register is the spec's decision D3). -/
def Obligations.StatusIsOnlyAReport : Prop :=
  ∀ (s t : State) (status : Status), s.status.run ≠ .halted → status.run ≠ .halted → step s = .next t →
    ∃ t', step { s with status := status } = .next t' ∧ t'.status.run = t.status.run ∧
      { t' with status := t.status } = t

/-- An instruction changes only the general registers R17 lists as written. -/
def Obligations.OnlyListedRegistersAreWritten : Prop :=
  ∀ (i : Instr) (s t : State) (r : Nibble), exec i s = .next t → i.writesV r = false → t.getV r = s.getV r

/-- A general register R17 does not list as read has no influence: changing it changes nothing in the result but that
register. -/
def Obligations.UnlistedRegistersAreNotRead : Prop :=
  ∀ (i : Instr) (s t : State) (r : Nibble) (b : Byte), i.readsV s.cfg r = false → exec i s = .next t →
    ∃ t', exec i (s.setV r b) = .next t' ∧ FrameExcept (fun p => p = .v r) t t'

/-- Each other part of the state is written only by the instructions its rule names: I (R23), the stack (R24), DT (R25),
ST (R26), no key and no option (R27, R32), the display (R28), and memory only at the bytes FX33 and FX55 store (R29, R47). -/
def Obligations.EveryPartHasItsWriters : Prop :=
  ∀ (i : Instr) (s t : State), exec i s = .next t →
    (t.i ≠ s.i → (∃ nnn, i = .ldI nnn) ∨ (∃ x, i = .addI x ∨ i = .ldF x) ∨
      (s.cfg.loadStoreIncrementsI = true ∧ ∃ x, i = .storeRegs x ∨ i = .loadRegs x)) ∧
    (t.sp ≠ s.sp → i = .ret ∨ ∃ nnn, i = .call nnn) ∧
    (t.stack ≠ s.stack → ∃ nnn, i = .call nnn) ∧
    (t.dt ≠ s.dt → ∃ x, i = .ldDtVx x) ∧
    (t.st ≠ s.st → ∃ x, i = .ldStVx x) ∧
    t.keys = s.keys ∧ t.cfg = s.cfg ∧
    (t.display ≠ s.display → i = .cls ∨ ∃ x y n, i = .drw x y n) ∧
    ∀ a, t.mem.read a ≠ s.mem.read a →
      (∃ x, i = .ldB x ∧ s.base ≤ a ∧ a < s.base + 3) ∨ (∃ x, i = .storeRegs x ∧ s.base ≤ a ∧ a ≤ s.base + x.toNat)

/-- The random byte of a STEP reaches the state only through CXNN: on any other instruction, and on a halted block, all
bytes give the same result (R31, R78; the spec's decision D12). -/
def Obligations.RandomByteReachesOnlyRnd : Prop :=
  ∀ (s : State) (r r' : Byte), (∀ x nn, ¬ s.nextInstr (.rnd x nn)) → stepWith r s = stepWith r' s

/-! ## Control transfer and skips -/

/-- RET pops: SP one less, PC the popped word, the slot kept; with SP = 0 it is StackUnderflow and halts in both modes
(R82), with the halted state of R127 (the spec's decision D13) and FAULT_PC as PC - 2 (log 6). -/
def Obligations.RetPopsOrUnderflows : Prop :=
  decodeWord 0x00EE = .ok .ret ∧
  (∀ (s : State) (h : s.sp.toNat - 1 < 16), 0 < s.sp.toNat →
    ∃ t, exec .ret s = .next t ∧ t.sp.toNat = s.sp.toNat - 1 ∧ t.pc = s.stack[s.sp.toNat - 1]'h ∧
      t.status.run = .running ∧ FrameExcept (fun p => p = .sp ∨ p = .pc ∨ p = .run) s t) ∧
  ∀ s : State, s.sp.toNat = 0 →
    exec .ret s = .next { s with status := ⟨.halted, some .stackUnderflow, false, s.pc - 2, 0x00EE⟩ }

/-- SYS changes nothing but RUN, whatever its operand (R64, R83; group 0 is the spec's decision D11). The operands 0x0E0 and 0x0EE,
which no word decodes to, are in it by the model's choice (log 13). -/
def Obligations.SysDoesNothing : Prop :=
  ∀ (nnn : Addr) (s : State), ∃ t, exec (.sys nnn) s = .next t ∧ t.status.run = .running ∧
    FrameExcept (fun p => p = .run) s t

/-- JP writes the zero-extended 12-bit address to PC (R84). -/
def Obligations.JpWritesAddress : Prop :=
  ∀ (nnn : Addr) (s : State), decodeWord (0x1#4 ++ nnn) = .ok (.jp nnn) ∧
    ∃ t, exec (.jp nnn) s = .next t ∧ t.pc.toNat = nnn.toNat ∧ t.status.run = .running ∧
      FrameExcept (fun p => p = .pc ∨ p = .run) s t

/-- CALL stores the return address (PC = P + 2 at execute) in stack[SP], then increments SP and jumps; with SP = 16 it is
StackOverflow, writes nothing and halts in both modes (R85), with the halted state of R127 (the spec's decision D13) and
FAULT_PC as PC - 2 (log 6). -/
def Obligations.CallPushesOrOverflows : Prop :=
  ∀ (nnn : Addr) (s : State), decodeWord (0x2#4 ++ nnn) = .ok (.call nnn) ∧
    (∀ h : s.sp.toNat < 16, ∃ t, exec (.call nnn) s = .next t ∧ t.stack[s.sp.toNat]'h = s.pc ∧
      t.sp.toNat = s.sp.toNat + 1 ∧ t.pc.toNat = nnn.toNat ∧ t.status.run = .running ∧
      FrameExcept (fun p => p = .slot ⟨s.sp.toNat, h⟩ ∨ p = .sp ∨ p = .pc ∨ p = .run) s t) ∧
    (s.sp.toNat = 16 → exec (.call nnn) s =
      .next { s with status := ⟨.halted, some .stackOverflow, false, s.pc - 2, 0x2#4 ++ nnn⟩ })

/-- A CALL and the RET at its target bring PC to the instruction after the CALL and SP back, whatever the target holds
beside the RET (R86, with SP < 16 before the CALL). -/
def Obligations.CallThenRetReturns : Prop :=
  ∀ (s : State) (a : Addr), s.nextInstr (.call a) → a.toNat ≤ 0xFFE → s.mem.read a.toNat = 0x00 →
    s.mem.read (a.toNat + 1) = 0xEE → ∀ h : s.sp.toNat < 16,
    ∃ t u, step s = .next t ∧ step t = .next u ∧ u.pc = s.pc + 2 ∧ u.sp = s.sp ∧
      FrameExcept (fun p => p = .slot ⟨s.sp.toNat, h⟩ ∨ p = .pc ∨ p = .run) s u

/-- The four compare-and-skip instructions add 2 to PC exactly when their condition holds, and change nothing else
(R87, R88, R89, R90); 5XYn and
9XYn with n not 0 are no instruction. -/
def Obligations.CompareSkips : Prop :=
  ∀ (x y : Nibble) (nn : Byte) (s : State),
    decodeWord (0x3#4 ++ x ++ nn) = .ok (.seImm x nn) ∧ decodeWord (0x4#4 ++ x ++ nn) = .ok (.sneImm x nn) ∧
    decodeWord (0x5#4 ++ x ++ y ++ 0#4) = .ok (.seReg x y) ∧ decodeWord (0x9#4 ++ x ++ y ++ 0#4) = .ok (.sneReg x y) ∧
    (∀ n : Nibble, n ≠ 0#4 → decodeWord (0x5#4 ++ x ++ y ++ n) = .error .unknownGroup5 ∧
      decodeWord (0x9#4 ++ x ++ y ++ n) = .error .unknownGroup9) ∧
    (∃ t, exec (.seImm x nn) s = .next t ∧ (s.getV x = nn → t.pc = s.pc + 2) ∧ (s.getV x ≠ nn → t.pc = s.pc) ∧
      t.status.run = .running ∧ FrameExcept (fun p => p = .pc ∨ p = .run) s t) ∧
    (∃ t, exec (.sneImm x nn) s = .next t ∧ (s.getV x ≠ nn → t.pc = s.pc + 2) ∧ (s.getV x = nn → t.pc = s.pc) ∧
      t.status.run = .running ∧ FrameExcept (fun p => p = .pc ∨ p = .run) s t) ∧
    (∃ t, exec (.seReg x y) s = .next t ∧ (s.getV x = s.getV y → t.pc = s.pc + 2) ∧
      (s.getV x ≠ s.getV y → t.pc = s.pc) ∧
      t.status.run = .running ∧ FrameExcept (fun p => p = .pc ∨ p = .run) s t) ∧
    (∃ t, exec (.sneReg x y) s = .next t ∧ (s.getV x ≠ s.getV y → t.pc = s.pc + 2) ∧
      (s.getV x = s.getV y → t.pc = s.pc) ∧
      t.status.run = .running ∧ FrameExcept (fun p => p = .pc ∨ p = .run) s t)

/-- BNNN jumps to NNN + V0, not masked to 12 bits (R91; the spec's decision D26). -/
def Obligations.JpV0AddsV0 : Prop :=
  ∀ (nnn : Addr) (s : State), ∃ t, exec (.jpV0 nnn) s = .next t ∧ t.pc.toNat = nnn.toNat + (s.getV 0#4).toNat ∧
    t.status.run = .running ∧ FrameExcept (fun p => p = .pc ∨ p = .run) s t

/-! ## Register arithmetic, logic and random -/

/-- 6XNN, 7XNN and 8XY0 write V[x] and nothing else; 7XNN wraps modulo 256 and leaves VF alone unless x is 0xF (R94,
R95, R96). -/
def Obligations.LoadsAndImmediateAdd : Prop :=
  ∀ (x y : Nibble) (nn : Byte) (s : State),
    decodeWord (0x6#4 ++ x ++ nn) = .ok (.ldImm x nn) ∧ decodeWord (0x7#4 ++ x ++ nn) = .ok (.addImm x nn) ∧
    decodeWord (0x8#4 ++ x ++ y ++ 0#4) = .ok (.ldReg x y) ∧
    (∃ t, exec (.ldImm x nn) s = .next t ∧ t.getV x = nn ∧ t.status.run = .running ∧
      FrameExcept (fun p => p = .v x ∨ p = .run) s t) ∧
    (∃ t, exec (.addImm x nn) s = .next t ∧ (t.getV x).toNat = ((s.getV x).toNat + nn.toNat) % 256 ∧
      t.status.run = .running ∧ FrameExcept (fun p => p = .v x ∨ p = .run) s t) ∧
    (∃ t, exec (.ldReg x y) s = .next t ∧ t.getV x = s.getV y ∧ t.status.run = .running ∧
      FrameExcept (fun p => p = .v x ∨ p = .run) s t)

/-- OR, AND and XOR write V[x] bit by bit and no flag (R97, R98, R99; no flag is the spec's decision D24). -/
def Obligations.LogicWritesOnlyVx : Prop :=
  ∀ (x y : Nibble) (s : State),
    (∃ t, exec (.orReg x y) s = .next t ∧
      (∀ b < 8, (t.getV x).getLsbD b = ((s.getV x).getLsbD b || (s.getV y).getLsbD b)) ∧
      t.status.run = .running ∧ FrameExcept (fun p => p = .v x ∨ p = .run) s t) ∧
    (∃ t, exec (.andReg x y) s = .next t ∧
      (∀ b < 8, (t.getV x).getLsbD b = ((s.getV x).getLsbD b && (s.getV y).getLsbD b)) ∧
      t.status.run = .running ∧ FrameExcept (fun p => p = .v x ∨ p = .run) s t) ∧
    (∃ t, exec (.xorReg x y) s = .next t ∧
      (∀ b < 8, (t.getV x).getLsbD b = ((s.getV x).getLsbD b ^^ (s.getV y).getLsbD b)) ∧
      t.status.run = .running ∧ FrameExcept (fun p => p = .v x ∨ p = .run) s t)

/-- ADD Vx, Vy: the sum modulo 256 in V[x], and VF = 1 exactly when the sum exceeds 0xFF. VF is written after V[x], so
with x = 0xF it ends as the carry (R100). -/
def Obligations.AddSetsCarryLast : Prop :=
  ∀ (x y : Nibble) (s : State), decodeWord (0x8#4 ++ x ++ y ++ 0x4#4) = .ok (.addReg x y) ∧
    ∃ t, exec (.addReg x y) s = .next t ∧
      (x ≠ 0xF#4 → (t.getV x).toNat = ((s.getV x).toNat + (s.getV y).toNat) % 256) ∧
      t.getV 0xF#4 = (if (s.getV x).toNat + (s.getV y).toNat > 0xFF then 1 else 0) ∧
      t.status.run = .running ∧ FrameExcept (fun p => p = .v x ∨ p = .v 0xF#4 ∨ p = .run) s t

/-- SUB and SUBN: the difference modulo 256 in V[x], and VF = 1 exactly when no borrow occurred, written last (R101, R103;
the write order is the spec's decision D9). -/
def Obligations.SubtractSetsNotBorrowLast : Prop :=
  ∀ (x y : Nibble) (s : State),
    (∃ t, exec (.subReg x y) s = .next t ∧
      (x ≠ 0xF#4 → (t.getV x).toNat = ((s.getV x).toNat + 256 - (s.getV y).toNat) % 256) ∧
      t.getV 0xF#4 = (if (s.getV x).toNat ≥ (s.getV y).toNat then 1 else 0) ∧
      t.status.run = .running ∧ FrameExcept (fun p => p = .v x ∨ p = .v 0xF#4 ∨ p = .run) s t) ∧
    (∃ t, exec (.subn x y) s = .next t ∧
      (x ≠ 0xF#4 → (t.getV x).toNat = ((s.getV y).toNat + 256 - (s.getV x).toNat) % 256) ∧
      t.getV 0xF#4 = (if (s.getV y).toNat ≥ (s.getV x).toNat then 1 else 0) ∧
      t.status.run = .running ∧ FrameExcept (fun p => p = .v x ∨ p = .v 0xF#4 ∨ p = .run) s t)

/-- SHR and SHL shift V[x], or V[y] into V[x] with SHIFT_USES_VY, by one; VF is the bit shifted out, written last (R102,
R104; the spec's decisions D9 and D27). -/
def Obligations.ShiftsSetDroppedBitLast : Prop :=
  ∀ (x y : Nibble) (s : State) (a : Byte), a = (if s.cfg.shiftUsesVy = true then s.getV y else s.getV x) →
    (∃ t, exec (.shr x y) s = .next t ∧ (x ≠ 0xF#4 → (t.getV x).toNat = a.toNat / 2) ∧
      (t.getV 0xF#4).toNat = a.toNat % 2 ∧
      t.status.run = .running ∧ FrameExcept (fun p => p = .v x ∨ p = .v 0xF#4 ∨ p = .run) s t) ∧
    (∃ t, exec (.shl x y) s = .next t ∧ (x ≠ 0xF#4 → (t.getV x).toNat = a.toNat * 2 % 256) ∧
      (t.getV 0xF#4).toNat = a.toNat / 128 ∧
      t.status.run = .running ∧ FrameExcept (fun p => p = .v x ∨ p = .v 0xF#4 ∨ p = .run) s t)

/-- RND writes the byte drawn, masked by NN; a STEP given the byte r writes r AND NN (R31, R105; the free byte is the
spec's decision D12, its form log 2). -/
def Obligations.RndMasksTheDraw : Prop :=
  ∀ (x : Nibble) (nn : Byte) (s : State),
    (∃ t, exec (.rnd x nn) s = .next t ∧ t.getV x = s.draw8 &&& nn ∧ t.status.run = .running ∧
      FrameExcept (fun p => p = .v x ∨ p = .run ∨ p = .draws) s t) ∧
    ∀ r : Byte, s.nextInstr (.rnd x nn) →
      ∃ t, stepWith r s = .next t ∧ t.getV x = r &&& nn ∧ t.pc = s.pc + 2 ∧ t.status.run = .running ∧
        FrameExcept (fun p => p = .v x ∨ p = .pc ∨ p = .run ∨ p = .draws) s t

/-! ## Index register and memory transfers -/

/-- ANNN and FX29 write I: the address, and five times the low nibble of V[x] (R107, R109). -/
def Obligations.IndexLoads : Prop :=
  ∀ (nnn : Addr) (x : Nibble) (s : State),
    decodeWord (0xA#4 ++ nnn) = .ok (.ldI nnn) ∧ decodeWord (0xF#4 ++ x ++ 0x29#8) = .ok (.ldF x) ∧
    (∃ t, exec (.ldI nnn) s = .next t ∧ t.i.toNat = nnn.toNat ∧ t.status.run = .running ∧
      FrameExcept (fun p => p = .i ∨ p = .run) s t) ∧
    (∃ t, exec (.ldF x) s = .next t ∧ t.i.toNat = (s.getV x).toNat % 16 * 5 ∧ t.status.run = .running ∧
      FrameExcept (fun p => p = .i ∨ p = .run) s t)

/-- FX1E adds V[x] to I modulo 2^16 and writes no flag (R108; no flag is the spec's decision D24). -/
def Obligations.IndexAddWrapsAt16Bits : Prop :=
  ∀ (x : Nibble) (s : State), ∃ t, exec (.addI x) s = .next t ∧
    t.i.toNat = (s.i.toNat + (s.getV x).toNat) % 65536 ∧ t.status.run = .running ∧
    FrameExcept (fun p => p = .i ∨ p = .run) s t

/-- FX33 stores the hundreds, tens and ones of V[x] at I, I+1, I+2 when I is at most 0xFFD, and raises MemoryFault when
it is not (R110). -/
def Obligations.DecimalSplitIsStored : Prop :=
  ∀ (x : Nibble) (s : State), decodeWord (0xF#4 ++ x ++ 0x33#8) = .ok (.ldB x) ∧
    (s.i.toNat ≤ 0xFFD → ∃ t, exec (.ldB x) s = .next t ∧
      (t.mem.read s.base).toNat = (s.getV x).toNat / 100 ∧
      (t.mem.read (s.base + 1)).toNat = (s.getV x).toNat / 10 % 10 ∧
      (t.mem.read (s.base + 2)).toNat = (s.getV x).toNat % 10 ∧ t.status.run = .running ∧
      FrameExcept (fun p => p = .byte s.base ∨ p = .byte (s.base + 1) ∨ p = .byte (s.base + 2) ∨ p = .run) s t) ∧
    (s.i.toNat > 0xFFD → exec (.ldB x) s = raise .memoryFault (0xF#4 ++ x ++ 0x33#8) s)

/-- FX55 in range stores V0..Vx at I..I+x and no other byte; I grows by x+1 modulo 2^16 with the quirk option and is kept
without it (R106, R111; the increment is the spec's decision D25). -/
def Obligations.StoreRegistersInclusive : Prop :=
  ∀ (x : Nibble) (s : State), s.i.toNat + x.toNat ≤ 0xFFF →
    ∃ t, exec (.storeRegs x) s = .next t ∧
      (∀ k : Nibble, k.toNat ≤ x.toNat → t.mem.read (s.base + k.toNat) = s.getV k) ∧
      t.i.toNat = (if s.cfg.loadStoreIncrementsI = true then (s.i.toNat + x.toNat + 1) % 65536 else s.i.toNat) ∧
      t.status.run = .running ∧
      FrameExcept (fun p => (∃ a, p = .byte a ∧ s.base ≤ a ∧ a ≤ s.base + x.toNat) ∨
        (p = .i ∧ s.cfg.loadStoreIncrementsI = true) ∨ p = .run) s t

/-- FX65 in range loads V0..Vx from I..I+x and no other register; I as for FX55 (R106, R112; the increment is the spec's
decision D25). -/
def Obligations.LoadRegistersInclusive : Prop :=
  ∀ (x : Nibble) (s : State), s.i.toNat + x.toNat ≤ 0xFFF →
    ∃ t, exec (.loadRegs x) s = .next t ∧
      (∀ k : Nibble, k.toNat ≤ x.toNat → t.getV k = s.mem.read (s.base + k.toNat)) ∧
      t.i.toNat = (if s.cfg.loadStoreIncrementsI = true then (s.i.toNat + x.toNat + 1) % 65536 else s.i.toNat) ∧
      t.status.run = .running ∧
      FrameExcept (fun p => (∃ k : Nibble, p = .v k ∧ k.toNat ≤ x.toNat) ∨
        (p = .i ∧ s.cfg.loadStoreIncrementsI = true) ∨ p = .run) s t

/-- Two adjacent registers stored by FX55 are the opcode a fetch from there reads at once (R55, R111). -/
def Obligations.StoredOpcodeIsFetchedNext : Prop :=
  ∀ (x k : Nibble) (s : State), s.i.toNat + x.toNat ≤ 0xFFF → k.toNat < x.toNat →
    ∃ t, exec (.storeRegs x) s = .next t ∧
      fetchWord { t with pc := s.i + k.setWidth 16 } = some (s.getV k ++ s.getV (k + 1))

/-! ## Display -/

/-- CLS turns every pixel off and changes nothing else (R114). -/
def Obligations.ClsClearsEveryPixel : Prop :=
  decodeWord 0x00E0 = .ok .cls ∧
  ∀ s : State, ∃ t, exec .cls s = .next t ∧ (∀ p < 2048, pixelOf t.display p = false) ∧ t.status.run = .running ∧
    FrameExcept (fun p => (∃ q, p = .pixel q) ∨ p = .run) s t

/-- DRW in range flips exactly the pixels under a 1 bit of the sprite, wrapping at both edges, and VF tells whether one of
them was on. The coordinates are read after VF is cleared, so a coordinate register VF reads 0 (R113, R115; the spec's
decisions D22 and D29). -/
def Obligations.DrawFlipsTheSpritePixels : Prop :=
  ∀ (x y n : Nibble) (s : State) (ox oy : Nat) (covered : Nat → Prop), s.i.toNat + n.toNat ≤ 4096 →
    ox = (if x = 0xF#4 then 0 else (s.getV x).toNat % 64) → oy = (if y = 0xF#4 then 0 else (s.getV y).toNat % 32) →
    (∀ p, covered p ↔ ∃ r c, r < n.toNat ∧ c < 8 ∧ (s.mem.read (s.base + r)).getLsbD (7 - c) = true ∧
      p = (oy + r) % 32 * 64 + (ox + c) % 64) →
    ∃ t, exec (.drw x y n) s = .next t ∧
      (∀ p < 2048, (covered p → pixelOf t.display p = !pixelOf s.display p) ∧
        (¬ covered p → pixelOf t.display p = pixelOf s.display p)) ∧
      ((∃ p, covered p ∧ pixelOf s.display p = true) → t.getV 0xF#4 = 1) ∧
      (¬(∃ p, covered p ∧ pixelOf s.display p = true) → t.getV 0xF#4 = 0) ∧
      t.status.run = .running ∧
      FrameExcept (fun p => (∃ q, p = .pixel q ∧ covered q) ∨ p = .v 0xF#4 ∨ p = .run) s t

/-- DXY0 only clears VF, whatever I holds (R116; the spec's decision D10). -/
def Obligations.DrawOfNoRowsClearsVf : Prop :=
  ∀ (x y : Nibble) (s : State), ∃ t, exec (.drw x y 0) s = .next t ∧ t.getV 0xF#4 = 0 ∧ t.status.run = .running ∧
    FrameExcept (fun p => p = .v 0xF#4 ∨ p = .run) s t

/-- Drawing the same sprite twice restores the display. The second draw's VF is 1 exactly when some pixel under a 1 bit of
the sprite was off before the first draw, so on a clear display exactly when some sprite byte is not 0. This is what R115
gives; R117 says it of every display, which `SecondDrawAlwaysCollides` states (log 14). -/
def Obligations.DrawTwiceRestoresDisplay : Prop :=
  ∀ (x y n : Nibble) (s : State), s.i.toNat + n.toNat ≤ 4096 →
    ∃ t u, exec (.drw x y n) s = .next t ∧ exec (.drw x y n) t = .next u ∧ u.display = s.display ∧
      (u.getV 0xF#4 = 1 ∨ u.getV 0xF#4 = 0) ∧
      (u.getV 0xF#4 = 1 ↔ ∃ p < 2048, pixelOf t.display p = true ∧ pixelOf s.display p = false) ∧
      ((∀ p < 2048, pixelOf s.display p = false) → (u.getV 0xF#4 = 1 ↔ ∃ r < n.toNat, s.mem.read (s.base + r) ≠ 0))

/-- The flag clause of R117 as it stands: the second of two equal draws collides whenever some sprite byte is not 0, whatever
the display held. R117 marks it as derived; it does not follow from R115 when the pixels were on before the first draw (log 14). -/
def Obligations.SecondDrawAlwaysCollides : Prop :=
  ∀ (x y n : Nibble) (s t u : State), s.i.toNat + n.toNat ≤ 4096 → exec (.drw x y n) s = .next t →
    exec (.drw x y n) t = .next u → (∃ r < n.toNat, s.mem.read (s.base + r) ≠ 0) → u.getV 0xF#4 = 1

/-! ## Keys and timers -/

/-- EX9E and EXA1 test the key named by the low nibble of V[x] and skip when it is down, and when it is up (R118, R119). -/
def Obligations.KeySkips : Prop :=
  ∀ (x k : Nibble) (s : State), k.toNat = (s.getV x).toNat % 16 →
    decodeWord (0xE#4 ++ x ++ 0x9E#8) = .ok (.skp x) ∧ decodeWord (0xE#4 ++ x ++ 0xA1#8) = .ok (.sknp x) ∧
    (∃ t, exec (.skp x) s = .next t ∧ (s.key k = true → t.pc = s.pc + 2) ∧ (s.key k = false → t.pc = s.pc) ∧
      t.status.run = .running ∧ FrameExcept (fun p => p = .pc ∨ p = .run) s t) ∧
    (∃ t, exec (.sknp x) s = .next t ∧ (s.key k = false → t.pc = s.pc + 2) ∧ (s.key k = true → t.pc = s.pc) ∧
      t.status.run = .running ∧ FrameExcept (fun p => p = .pc ∨ p = .run) s t)

/-- FX0A with a key down writes the lowest such key's number; with none down it goes back to itself and RUN is AwaitingKey
(R75, R121; the level test is the spec's decision D28). -/
def Obligations.WaitForKey : Prop :=
  ∀ (x : Nibble) (s : State),
    (∀ k : Nibble, s.key k = true → (∀ j : Nibble, j.toNat < k.toNat → s.key j = false) →
      ∃ t, exec (.ldVxK x) s = .next t ∧ (t.getV x).toNat = k.toNat ∧ t.status.run = .running ∧
        FrameExcept (fun p => p = .v x ∨ p = .run) s t) ∧
    ((∀ k : Nibble, s.key k = false) →
      ∃ t, exec (.ldVxK x) s = .next t ∧ t.pc = s.pc - 2 ∧ t.status.run = .awaitingKey ∧
        FrameExcept (fun p => p = .pc ∨ p = .run) s t)

/-- FX07, FX15 and FX18 move a byte between V[x] and a timer (R120, R122, R123). -/
def Obligations.TimerTransfers : Prop :=
  ∀ (x : Nibble) (s : State),
    decodeWord (0xF#4 ++ x ++ 0x07#8) = .ok (.ldVxDt x) ∧ decodeWord (0xF#4 ++ x ++ 0x15#8) = .ok (.ldDtVx x) ∧
    decodeWord (0xF#4 ++ x ++ 0x18#8) = .ok (.ldStVx x) ∧
    (∃ t, exec (.ldVxDt x) s = .next t ∧ t.getV x = s.dt ∧ t.status.run = .running ∧
      FrameExcept (fun p => p = .v x ∨ p = .run) s t) ∧
    (∃ t, exec (.ldDtVx x) s = .next t ∧ t.dt = s.getV x ∧ t.status.run = .running ∧
      FrameExcept (fun p => p = .dt ∨ p = .run) s t) ∧
    (∃ t, exec (.ldStVx x) s = .next t ∧ t.st = s.getV x ∧ t.status.run = .running ∧
      FrameExcept (fun p => p = .st ∨ p = .run) s t)

/-! ## The other transactions -/

/-- RESET leaves every field at the value of R39, for any construction arguments and any FONT_ROM, from every state. -/
def Obligations.ResetValues : Prop :=
  ∀ (font : Vector Byte 80) (cfg : Cfg) (s : State), ∃ t, transact font (.reset cfg) s = .next t ∧
    (∀ r, t.getV r = 0) ∧ t.i = 0 ∧ t.pc = 0x200 ∧ t.sp = 0 ∧ (∀ j : Fin 16, t.stack[j.val] = 0) ∧ t.dt = 0 ∧ t.st = 0 ∧
    (∀ k, t.key k = false) ∧ (∀ p < 2048, pixelOf t.display p = false) ∧
    (∀ a (h : a < 80), t.mem.read a = font[a]'h) ∧ (∀ a, 0x50 ≤ a → a ≤ 0xFFF → t.mem.read a = 0) ∧
    t.cfg = cfg ∧ t.status.word = 0 ∧ t.status.run = .running ∧ t.status.fault = none

/-- n ticks take n from each timer, never below 0, and change nothing else, in every run state (R25, R26, R137; the run
states are the spec's decision D14). -/
def Obligations.TicksCountDown : Prop :=
  ∀ (n : Nat) (s t : State), t = Nat.iterate State.tick n s →
    t.dt.toNat = s.dt.toNat - n ∧ t.st.toNat = s.st.toNat - n ∧
    FrameExcept (fun p => p = .dt ∨ p = .st) s t

/-- KEY sets its key, and over any transaction but KEY and RESET every key is kept (R27, R139; KEY is the spec's decision
D18). -/
def Obligations.OnlyKeyEventsWriteKeys : Prop :=
  (∀ (k : Nibble) (down : Bool) (s : State),
    (s.keyEvent k down).key k = down ∧ FrameExcept (fun p => p = .key k) s (s.keyEvent k down)) ∧
  ∀ (font : Vector Byte 80) (tr : Transaction) (s t : State), (∀ k down, tr ≠ .key k down) →
    (∀ cfg, tr ≠ .reset cfg) → transact font tr s = .next t → ∀ k, t.key k = s.key k

/-- CFG is written by RESET alone (R32, R146; the register is the spec's decision D3). -/
def Obligations.OnlyResetWritesCfg : Prop :=
  ∀ (font : Vector Byte 80) (ts : List Transaction) (s t : State), (∀ cfg, .reset cfg ∉ ts) →
    transactAll font ts s = .next t → t.cfg = s.cfg

/-- A halted block stays halted over any transactions but RESET, and V, I, PC, SP, the stack, the display, CFG and memory below
0x200 are kept; the timers, the keys, memory from 0x200 and the fault record may change (R127, R132, R145; the spec's decision
D14). The fault record may change through an oversized LOAD in strict mode (log 15). -/
def Obligations.OnlyResetLeavesHalted : Prop :=
  ∀ (font : Vector Byte 80) (ts : List Transaction) (s : State), s.status.run = .halted → (∀ cfg, .reset cfg ∉ ts) →
    ∃ t, transactAll font ts s = .next t ∧ t.status.run = .halted ∧
      FrameExcept (fun p => p = .dt ∨ p = .st ∨ (∃ k, p = .key k) ∨ (∃ a, p = .byte a ∧ 0x200 ≤ a) ∨ p = .faultRecord) s t

/-- LOAD of at most 3584 bytes puts them at 0x200, zeroes the rest to 0xFFF, and changes nothing else (R148; the zeroed tail
and a LOAD after steps are the spec's decision D16). -/
def Obligations.LoadPlacesTheProgram : Prop :=
  ∀ (rom : List Byte) (s : State), rom.length ≤ 3584 →
    loadResult rom = .ok () ∧
    (∀ (k : Nat) (h : k < rom.length), (s.load rom).mem.read (0x200 + k) = rom[k]'h) ∧
    (∀ a, 0x200 + rom.length ≤ a → a ≤ 0xFFF → (s.load rom).mem.read a = 0) ∧
    FrameExcept (fun p => ∃ a, p = .byte a ∧ 0x200 ≤ a) s (s.load rom)

/-- LOAD of more than 3584 bytes is rejected with memory and every register kept; strict mode also halts, with no address
and no opcode recorded (R129; the spec's decision D15). On a block that is already halted it replaces the record (log 15). -/
def Obligations.OversizedLoadIsRejected : Prop :=
  ∀ (rom : List Byte) (s : State), rom.length > 3584 →
    loadResult rom = .error .romTooLarge ∧ (s.cfg.strict = false → s.load rom = s) ∧
    (s.cfg.strict = true → s.load rom = { s with status := ⟨.halted, some .romTooLarge, false, 0, 0⟩ })

/-- READ reports the display, the sound gate ST > 0 and STATUS with each field at its bits (R33, R140, R141, R142; the layout
is the spec's decisions D3 and D4), and changes nothing. -/
def Obligations.ReadReportsTheStatusLayout : Prop :=
  ∀ (font : Vector Byte 80) (s : State), transact font .read s = .next s ∧ s.readout.display = s.display ∧
    (s.readout.soundOn = true ↔ s.st ≠ 0) ∧
    s.readout.status.extractLsb' 0 2 =
      (match s.status.run with | .running => 0 | .awaitingKey => 1 | .halted => 2) ∧
    s.readout.status.extractLsb' 2 3 =
      (match s.status.fault with
        | none => 0 | some .decodeFault => 1 | some .stackOverflow => 2 | some .stackUnderflow => 3
        | some .memoryFault => 4 | some .romTooLarge => 5) ∧
    (s.readout.status.getLsbD 5 = s.status.fetch) ∧ s.readout.status.extractLsb' 6 10 = 0 ∧
    s.readout.status.extractLsb' 16 16 = s.status.faultPc ∧ s.readout.status.extractLsb' 32 16 = s.status.faultOp

/-- The cooperative schedule: it runs the steps with the bytes given, in order, and has a TICK after every TICKS_PER_TIMER =
max(1, floor(rate / 60)) steps and nowhere else, so n steps bring n / TICKS_PER_TIMER ticks (R154; the spec's decision D17; an
option, log 9). -/
def Obligations.CooperativeScheduleTicks : Prop :=
  ∀ (rate period : Nat) (draws : List Byte), period = max 1 (rate / 60) →
    (cooperativeSchedule rate draws).filterMap Transaction.stepByte = draws ∧
    (cooperativeSchedule rate draws).length = draws.length + draws.length / period ∧
    ∀ (k : Nat) (h : k < (cooperativeSchedule rate draws).length),
      ((k + 1) % (period + 1) = 0 → (cooperativeSchedule rate draws)[k]'h = .tick) ∧
      ((k + 1) % (period + 1) ≠ 0 → ∃ r, (cooperativeSchedule rate draws)[k]'h = .step r)

/-- The flag clause of R117 where its own ground holds, every pixel the second draw toggles being set by the first: after a
first draw that turned no pixel off (VF = 0), the second sets VF to 1 if some sprite byte is not 0. If every sprite byte is 0,
the second leaves VF 0 whatever the first did (R115, R117; log 14). -/
def Obligations.SecondDrawCollidesAfterCleanDraw : Prop :=
  ∀ (x y n : Nibble) (s : State), s.i.toNat + n.toNat ≤ 4096 →
    ∃ t u, exec (.drw x y n) s = .next t ∧ exec (.drw x y n) t = .next u ∧
      (t.getV 0xF#4 = 0 → (∃ r < n.toNat, s.mem.read (s.base + r) ≠ 0) → u.getV 0xF#4 = 1) ∧
      ((∀ r < n.toNat, s.mem.read (s.base + r) = 0) → u.getV 0xF#4 = 0)
end

