-- ==== Sys2Proof/Laws/Decode.lean ====
section
/-! SUPPORT. The fields of an encoded word (30_encoding.md R59), and a word put together from its fields. -/

namespace Sys2Proof

/-! ## `op nnn` -/

@[simp] theorem opField_encodeNnn (op : Nibble) (a : Addr) : opField (encodeNnn op a) = op := by
  apply BitVec.eq_of_getLsbD_eq
  intro i hi
  simp only [opField, encodeNnn, BitVec.getLsbD_extractLsb', BitVec.getLsbD_append]
  interval_cases i <;> simp

@[simp] theorem nnnField_encodeNnn (op : Nibble) (a : Addr) : nnnField (encodeNnn op a) = a := by
  apply BitVec.eq_of_getLsbD_eq
  intro i hi
  simp only [nnnField, encodeNnn, BitVec.getLsbD_extractLsb', BitVec.getLsbD_append]
  interval_cases i <;> simp

/-! ## `op x nn` -/

@[simp] theorem opField_encodeXnn (op : Nibble) (x : Nibble) (nn : Byte) : opField (encodeXnn op x nn) = op := by
  apply BitVec.eq_of_getLsbD_eq
  intro i hi
  simp only [opField, encodeXnn, BitVec.getLsbD_extractLsb', BitVec.getLsbD_append]
  interval_cases i <;> simp

@[simp] theorem xField_encodeXnn (op : Nibble) (x : Nibble) (nn : Byte) : xField (encodeXnn op x nn) = x := by
  apply BitVec.eq_of_getLsbD_eq
  intro i hi
  simp only [xField, encodeXnn, BitVec.getLsbD_extractLsb', BitVec.getLsbD_append]
  interval_cases i <;> simp

@[simp] theorem nnField_encodeXnn (op : Nibble) (x : Nibble) (nn : Byte) : nnField (encodeXnn op x nn) = nn := by
  apply BitVec.eq_of_getLsbD_eq
  intro i hi
  simp only [nnField, encodeXnn, BitVec.getLsbD_extractLsb', BitVec.getLsbD_append]
  interval_cases i <;> simp

/-! ## `op x y n` -/

@[simp] theorem opField_encodeXyn (op : Nibble) (x : Nibble) (y : Nibble) (n : Nibble) : opField (encodeXyn op x y n) = op := by
  apply BitVec.eq_of_getLsbD_eq
  intro i hi
  simp only [opField, encodeXyn, BitVec.getLsbD_extractLsb', BitVec.getLsbD_append]
  interval_cases i <;> simp

@[simp] theorem xField_encodeXyn (op : Nibble) (x : Nibble) (y : Nibble) (n : Nibble) : xField (encodeXyn op x y n) = x := by
  apply BitVec.eq_of_getLsbD_eq
  intro i hi
  simp only [xField, encodeXyn, BitVec.getLsbD_extractLsb', BitVec.getLsbD_append]
  interval_cases i <;> simp

@[simp] theorem yField_encodeXyn (op : Nibble) (x : Nibble) (y : Nibble) (n : Nibble) : yField (encodeXyn op x y n) = y := by
  apply BitVec.eq_of_getLsbD_eq
  intro i hi
  simp only [yField, encodeXyn, BitVec.getLsbD_extractLsb', BitVec.getLsbD_append]
  interval_cases i <;> simp

@[simp] theorem nField_encodeXyn (op : Nibble) (x : Nibble) (y : Nibble) (n : Nibble) : nField (encodeXyn op x y n) = n := by
  apply BitVec.eq_of_getLsbD_eq
  intro i hi
  simp only [nField, encodeXyn, BitVec.getLsbD_extractLsb', BitVec.getLsbD_append]
  interval_cases i <;> simp

/-! ## A word from its fields -/

theorem encodeNnn_fields (w : Word) : encodeNnn (opField w) (nnnField w) = w := by
  apply BitVec.eq_of_getLsbD_eq
  intro i hi
  simp only [encodeNnn, opField, nnnField, BitVec.getLsbD_append, BitVec.getLsbD_extractLsb']
  interval_cases i <;> simp

theorem encodeXnn_fields (w : Word) : encodeXnn (opField w) (xField w) (nnField w) = w := by
  apply BitVec.eq_of_getLsbD_eq
  intro i hi
  simp only [encodeXnn, opField, xField, nnField, BitVec.getLsbD_append, BitVec.getLsbD_extractLsb']
  interval_cases i <;> simp

theorem encodeXyn_fields (w : Word) : encodeXyn (opField w) (xField w) (yField w) (nField w) = w := by
  apply BitVec.eq_of_getLsbD_eq
  intro i hi
  simp only [encodeXyn, opField, xField, yField, nField, BitVec.getLsbD_append, BitVec.getLsbD_extractLsb']
  interval_cases i <;> simp

/-- The two bytes of a word, put together again. -/
@[simp] theorem wordOfBytes_bytesOfWord (w : Word) : wordOfBytes (w.extractLsb' 8 8) (w.extractLsb' 0 8) = w := by
  apply BitVec.eq_of_getLsbD_eq
  intro i hi
  simp only [wordOfBytes, BitVec.getLsbD_append, BitVec.getLsbD_extractLsb']
  interval_cases i <;> simp

/-- The bytes of a word put together from two bytes. -/
@[simp] theorem bytesOfWord_wordOfBytes (hi lo : Byte) : bytesOfWord (wordOfBytes hi lo) = [hi, lo] := by
  simp only [bytesOfWord, List.cons.injEq, and_true]
  constructor <;> apply BitVec.eq_of_getLsbD_eq <;> intro i h <;>
    simp only [wordOfBytes, BitVec.getLsbD_append, BitVec.getLsbD_extractLsb'] <;> interval_cases i <;> simp

/-- The decoder reads the two bytes of a word and leaves the rest. -/
theorem decode_bytesOfWord (w : Word) (rest : List Byte) :
    decode (bytesOfWord w ++ rest) = (decodeWord w).map fun i => (i, rest) := by
  simp [decode, bytesOfWord]

end Sys2Proof
end

