-- ==== Sys2Proof/Laws/Memory.lean ====
section
/-! SUPPORT. The laws of memory: a read after a write, and that every operation keeps the canonical form. -/

namespace Sys2Proof.Machine

/-! ## Reads after writes, on any list -/

theorem Memory.read_erase_same (m : Memory) (a : Nat) : (m.erase a).read a = Memory.blank a := by
  induction m with
  | nil => rfl
  | cons c m ih =>
    obtain ⟨k, b⟩ := c
    by_cases h : k = a
    · simpa [Memory.erase, h] using ih
    · simpa [Memory.erase, h, Memory.read] using ih

theorem Memory.read_erase_other (m : Memory) {a a' : Nat} (h : a' ≠ a) : (m.erase a).read a' = m.read a' := by
  induction m with
  | nil => rfl
  | cons c m ih =>
    obtain ⟨k, b⟩ := c
    by_cases hk : k = a
    · subst hk; simpa [Memory.erase, Memory.read, Ne.symm h] using ih
    · by_cases hk' : k = a'
      · subst hk'; simp [Memory.erase, Memory.read, h]
      · simpa [Memory.erase, Memory.read, hk, hk'] using ih

theorem Memory.read_insert_other (m : Memory) {a a' : Nat} (b : Byte) (h : a' ≠ a) :
    (m.insert a b).read a' = m.read a' := by
  induction m with
  | nil => simp [Memory.insert, Memory.read, Ne.symm h]
  | cons c m ih =>
    obtain ⟨k, c⟩ := c
    simp only [Memory.insert]
    split
    · simp [Memory.read, Ne.symm h]
    · simp [Memory.read, ih]

theorem Memory.read_insert_erase_same (m : Memory) (a : Nat) (b : Byte) : ((m.erase a).insert a b).read a = b := by
  induction m with
  | nil => simp [Memory.erase, Memory.insert, Memory.read]
  | cons c m ih =>
    obtain ⟨k, c⟩ := c
    by_cases hk : k = a
    · simpa [Memory.erase, hk] using ih
    · simp only [Memory.erase, List.filter_cons, bne_iff_ne, ne_eq, hk, not_false_eq_true, ↓reduceIte, Memory.insert]
      split
      · simp [Memory.read]
      · simp only [Memory.read, hk, ↓reduceIte]; exact ih

@[simp] theorem Memory.read_write_same (m : Memory) (a : Nat) (b : Byte) : (m.write a b).read a = b := by
  unfold Memory.write
  split
  · rename_i h; rw [Memory.read_erase_same, h]
  · exact Memory.read_insert_erase_same m a b

theorem Memory.read_write_other (m : Memory) {a a' : Nat} (b : Byte) (h : a' ≠ a) :
    (m.write a b).read a' = m.read a' := by
  unfold Memory.write
  split
  · exact Memory.read_erase_other m h
  · rw [Memory.read_insert_other _ b h, Memory.read_erase_other m h]

/-- What a byte reads as after a run of bytes is stored. -/
theorem Memory.read_writeBytes (m : Memory) (a a' : Nat) (bs : List Byte) :
    (m.writeBytes a bs).read a' = if h : a ≤ a' ∧ a' < a + bs.length then bs[a' - a]'(by omega) else m.read a' := by
  induction bs generalizing m a with
  | nil => simp only [Memory.writeBytes, List.length_nil, Nat.add_zero]; split <;> [omega; rfl]
  | cons b bs ih =>
    rw [Memory.writeBytes, ih]
    by_cases h : a' = a
    · subst h; simp
    · rw [Memory.read_write_other m b h]
      by_cases h1 : a + 1 ≤ a' ∧ a' < a + 1 + bs.length
      · have h2 : a ≤ a' ∧ a' < a + (b :: bs).length := by simp only [List.length_cons]; omega
        have e : a' - a = a' - (a + 1) + 1 := by omega
        rw [dif_pos h1, dif_pos h2]
        simp only [e, List.getElem_cons_succ]
      · have h2 : ¬(a ≤ a' ∧ a' < a + (b :: bs).length) := by simp only [List.length_cons]; omega
        rw [dif_neg h1, dif_neg h2]

/-- A byte outside the stored run reads as before. -/
theorem Memory.read_writeBytes_outside (m : Memory) {a a' : Nat} {bs : List Byte}
    (h : a' < a ∨ a + bs.length ≤ a') : (m.writeBytes a bs).read a' = m.read a' := by
  rw [Memory.read_writeBytes, dif_neg (by omega)]

@[simp] theorem Memory.readBytes_length (m : Memory) (a n : Nat) : (m.readBytes a n).length = n := by
  induction n generalizing a with
  | zero => rfl
  | succ n ih => simp [Memory.readBytes, ih]

@[simp] theorem Memory.readBytes_getElem (m : Memory) (a n k : Nat) (h : k < (m.readBytes a n).length) :
    (m.readBytes a n)[k] = m.read (a + k) := by
  induction n generalizing a k with
  | zero => simp [Memory.readBytes] at h
  | succ n ih =>
    cases k with
    | zero => simp [Memory.readBytes]
    | succ k =>
      have e : a + 1 + k = a + (k + 1) := by omega
      simp only [Memory.readBytes, List.getElem_cons_succ]
      rw [ih, e]

/-! ## The canonical form -/

theorem Memory.wfFrom_mono {m : Memory} {lo lo' : Nat} (h : lo' ≤ lo) (hm : m.wfFrom lo = true) :
    m.wfFrom lo' = true := by
  cases m with
  | nil => rfl
  | cons c m =>
    obtain ⟨k, b⟩ := c
    simp only [Memory.wfFrom, Bool.and_eq_true, decide_eq_true_eq] at *
    exact ⟨⟨⟨by omega, hm.1.1.2⟩, hm.1.2⟩, hm.2⟩

theorem Memory.wfFrom_erase {m : Memory} {lo : Nat} (a : Nat) (h : m.wfFrom lo = true) :
    (m.erase a).wfFrom lo = true := by
  induction m generalizing lo with
  | nil => rfl
  | cons c m ih =>
    obtain ⟨k, b⟩ := c
    simp only [Memory.wfFrom, Bool.and_eq_true, decide_eq_true_eq] at h
    by_cases hk : k = a
    · have := Memory.wfFrom_mono (lo' := lo) (by omega) (ih h.2)
      simpa [Memory.erase, hk] using this
    · have := ih h.2
      simp only [Memory.erase, List.filter_cons, bne_iff_ne, ne_eq, hk, not_false_eq_true, ↓reduceIte,
        Memory.wfFrom, Bool.and_eq_true, decide_eq_true_eq]
      exact ⟨⟨⟨h.1.1.1, h.1.1.2⟩, by simpa using h.1.2⟩, this⟩

theorem Memory.wfFrom_insert_erase {m : Memory} {lo a : Nat} {b : Byte} (h : m.wfFrom lo = true) (hlo : lo ≤ a)
    (ha : a < Config.memorySize) (hb : b ≠ Memory.blank a) : ((m.erase a).insert a b).wfFrom lo = true := by
  induction m generalizing lo with
  | nil => simp [Memory.erase, Memory.insert, Memory.wfFrom, hlo, ha, hb]
  | cons c m ih =>
    obtain ⟨k, c⟩ := c
    have hm := h
    simp only [Memory.wfFrom, Bool.and_eq_true, decide_eq_true_eq] at h
    by_cases hk : k = a
    · have := ih (Memory.wfFrom_mono (lo' := lo) (by omega) h.2) hlo
      simpa [Memory.erase, hk] using this
    · simp only [Memory.erase, List.filter_cons, bne_iff_ne, ne_eq, hk, not_false_eq_true, ↓reduceIte, Memory.insert]
      split
      · rename_i hlt
        have he := Memory.wfFrom_erase a h.2
        simp only [Memory.wfFrom, Bool.and_eq_true, decide_eq_true_eq]
        exact ⟨⟨⟨hlo, ha⟩, by simpa using hb⟩, ⟨⟨⟨by omega, h.1.1.2⟩, h.1.2⟩, he⟩⟩
      · have := ih h.2 (by omega)
        simp only [Memory.wfFrom, Bool.and_eq_true, decide_eq_true_eq]
        exact ⟨h.1, this⟩

/-- A write inside the 4096 bytes keeps the canonical form. -/
theorem Memory.wf_write {m : Memory} {a : Nat} (b : Byte) (h : m.wf = true) (ha : a < Config.memorySize) :
    (m.write a b).wf = true := by
  unfold Memory.write
  split
  · exact Memory.wfFrom_erase a h
  · rename_i hb; exact Memory.wfFrom_insert_erase h (Nat.zero_le a) ha hb

/-- A run of writes inside the 4096 bytes keeps it. -/
theorem Memory.wf_writeBytes {m : Memory} {a : Nat} {bs : List Byte} (h : m.wf = true)
    (ha : a + bs.length ≤ Config.memorySize) : (m.writeBytes a bs).wf = true := by
  induction bs generalizing m a with
  | nil => exact h
  | cons b bs ih =>
    simp only [List.length_cons] at ha
    exact ih (Memory.wf_write b h (by omega)) (by omega)

/-! ## Bytes laid down from an address: LOAD and RESET -/

theorem Memory.wfFrom_cellsFrom {a : Nat} {bs : List Byte} (ha : a + bs.length ≤ Config.memorySize) :
    (Memory.cellsFrom a bs).wfFrom a = true := by
  induction bs generalizing a with
  | nil => rfl
  | cons b bs ih =>
    simp only [List.length_cons] at ha
    have := ih (a := a + 1) (by omega)
    unfold Memory.cellsFrom
    split
    · exact Memory.wfFrom_mono (by omega) this
    · rename_i hb
      simp only [Memory.wfFrom, Bool.and_eq_true, decide_eq_true_eq]
      exact ⟨⟨⟨le_refl a, by omega⟩, by simpa using hb⟩, this⟩

theorem Memory.read_cellsFrom_below {a a' : Nat} (bs : List Byte) (h : a' < a) :
    (Memory.cellsFrom a bs).read a' = Memory.blank a' := by
  induction bs generalizing a with
  | nil => rfl
  | cons b bs ih =>
    unfold Memory.cellsFrom
    split
    · exact ih (by omega)
    · simp only [Memory.read, if_neg (show ¬ a = a' by omega)]; exact ih (by omega)

/-- What a byte reads as after bytes are laid down over the reset contents. -/
theorem Memory.read_cellsFrom (a a' : Nat) (bs : List Byte) : (Memory.cellsFrom a bs).read a' =
    if h : a ≤ a' ∧ a' < a + bs.length then bs[a' - a]'(by omega) else Memory.blank a' := by
  induction bs generalizing a with
  | nil => simp only [List.length_nil, Nat.add_zero]; split <;> [omega; rfl]
  | cons b bs ih =>
    by_cases h : a' = a
    · subst h
      have hb := Memory.read_cellsFrom_below bs (Nat.lt_succ_self a')
      unfold Memory.cellsFrom
      split <;> simp_all [Memory.read]
    · have step : (Memory.cellsFrom a (b :: bs)).read a' = (Memory.cellsFrom (a + 1) bs).read a' := by
        conv_lhs => unfold Memory.cellsFrom
        split
        · rfl
        · simp [Memory.read, Ne.symm h]
      rw [step, ih]
      by_cases h1 : a + 1 ≤ a' ∧ a' < a + 1 + bs.length
      · have h2 : a ≤ a' ∧ a' < a + (b :: bs).length := by simp only [List.length_cons]; omega
        have e : a' - a = a' - (a + 1) + 1 := by omega
        rw [dif_pos h1, dif_pos h2]
        simp only [e, List.getElem_cons_succ]
      · have h2 : ¬(a ≤ a' ∧ a' < a + (b :: bs).length) := by simp only [List.length_cons]; omega
        rw [dif_neg h1, dif_neg h2]

/-- Every FONT_ROM gives a canonical memory. -/
theorem Memory.wf_ofFont (font : Vector Byte 80) : (Memory.ofFont font).wf = true := by
  apply Memory.wfFrom_cellsFrom
  simp [Config.memorySize]

/-- Above the font area the reset contents are zero (R39, R42). -/
theorem Memory.blank_above (a : Nat) (h : 80 ≤ a) : Memory.blank a = 0 := by
  simp [Memory.blank, Config.fontBytes_length, h]

/-- Cells below a limit, followed by cells that say nothing below it: each answers for its own side. -/
theorem Memory.read_below_append (m : Memory) {m' : Memory} {lim : Nat}
    (h : ∀ a < lim, m'.read a = Memory.blank a) (a : Nat) :
    Memory.read ((m.filter fun c => decide (c.1 < lim)) ++ m') a = if a < lim then m.read a else m'.read a := by
  induction m with
  | nil =>
    simp only [List.filter_nil, List.nil_append, Memory.read]
    split
    · rename_i ha; exact h a ha
    · rfl
  | cons c m ih =>
    obtain ⟨k, b⟩ := c
    by_cases hk : k < lim
    · simp only [List.filter_cons, hk, decide_true, ↓reduceIte, List.cons_append, Memory.read, ih]
      by_cases e : k = a
      · subst e; simp [hk]
      · simp [e]
    · simp only [List.filter_cons, hk, decide_false, Bool.false_eq_true, ↓reduceIte, ih, Memory.read]
      by_cases ha : a < lim
      · simp [ha, show k ≠ a by omega]
      · simp [ha]

/-- What a byte reads as after LOAD of a program that fits (R148). -/
theorem Memory.read_loadProgram (m : Memory) (rom : List Byte) (a : Nat) : (m.loadProgram rom).read a =
    if a < Config.loadAddress then m.read a else (Memory.cellsFrom Config.loadAddress rom).read a :=
  Memory.read_below_append m (fun _ h => Memory.read_cellsFrom_below rom h) a

theorem Memory.wfFrom_below_append {m m' : Memory} {lim lo : Nat} (hm : m.wfFrom lo = true)
    (hm' : m'.wfFrom lim = true) (hlo : lo ≤ lim) :
    Memory.wfFrom lo ((m.filter fun c => decide (c.1 < lim)) ++ m') = true := by
  induction m generalizing lo with
  | nil => exact Memory.wfFrom_mono hlo hm'
  | cons c m ih =>
    obtain ⟨k, b⟩ := c
    simp only [Memory.wfFrom, Bool.and_eq_true, decide_eq_true_eq] at hm
    by_cases hk : k < lim
    · have := ih hm.2 hk
      simp only [List.filter_cons, hk, decide_true, ↓reduceIte, List.cons_append, Memory.wfFrom, Bool.and_eq_true,
        decide_eq_true_eq]
      exact ⟨hm.1, this⟩
    · have := ih (lo := lo) (Memory.wfFrom_mono (by omega) hm.2) hlo
      simpa [List.filter_cons, hk] using this

/-- LOAD of a program that fits keeps the canonical form. -/
theorem Memory.wf_loadProgram {m : Memory} {rom : List Byte} (h : m.wf = true)
    (hr : rom.length ≤ Config.maxProgramSize) : (m.loadProgram rom).wf = true := by
  apply Memory.wfFrom_below_append h _ (Nat.zero_le _)
  apply Memory.wfFrom_cellsFrom
  simp only [Config.maxProgramSize, Config.loadAddress, Config.memorySize] at *
  omega

end Sys2Proof.Machine
end

