-- ==== Sys2Proof/Laws/State.lean ====
section
/-! SUPPORT. What each update of the state does to each field: true by unfolding, for simp. -/

namespace Sys2Proof.Machine

variable (s : State)

/-! ## setV -/

@[simp] theorem State.setV_v (r : Nibble) (b : Byte) : (s.setV r b).v = s.v.set r.toNat b r.isLt := rfl
@[simp] theorem State.setV_i (r : Nibble) (b : Byte) : (s.setV r b).i = s.i := rfl
@[simp] theorem State.setV_pc (r : Nibble) (b : Byte) : (s.setV r b).pc = s.pc := rfl
@[simp] theorem State.setV_sp (r : Nibble) (b : Byte) : (s.setV r b).sp = s.sp := rfl
@[simp] theorem State.setV_stack (r : Nibble) (b : Byte) : (s.setV r b).stack = s.stack := rfl
@[simp] theorem State.setV_dt (r : Nibble) (b : Byte) : (s.setV r b).dt = s.dt := rfl
@[simp] theorem State.setV_st (r : Nibble) (b : Byte) : (s.setV r b).st = s.st := rfl
@[simp] theorem State.setV_keys (r : Nibble) (b : Byte) : (s.setV r b).keys = s.keys := rfl
@[simp] theorem State.setV_display (r : Nibble) (b : Byte) : (s.setV r b).display = s.display := rfl
@[simp] theorem State.setV_mem (r : Nibble) (b : Byte) : (s.setV r b).mem = s.mem := rfl
@[simp] theorem State.setV_cfg (r : Nibble) (b : Byte) : (s.setV r b).cfg = s.cfg := rfl
@[simp] theorem State.setV_status (r : Nibble) (b : Byte) : (s.setV r b).status = s.status := rfl
@[simp] theorem State.setV_offered (r : Nibble) (b : Byte) : (s.setV r b).offered = s.offered := rfl
@[simp] theorem State.setV_drawn (r : Nibble) (b : Byte) : (s.setV r b).drawn = s.drawn := rfl

/-! ## setVThenFlag -/

@[simp] theorem State.setVThenFlag_v (x : Nibble) (a f : Byte) : (s.setVThenFlag x a f).v = ((s.setV x a).setV flagReg f).v := rfl
@[simp] theorem State.setVThenFlag_i (x : Nibble) (a f : Byte) : (s.setVThenFlag x a f).i = s.i := rfl
@[simp] theorem State.setVThenFlag_pc (x : Nibble) (a f : Byte) : (s.setVThenFlag x a f).pc = s.pc := rfl
@[simp] theorem State.setVThenFlag_sp (x : Nibble) (a f : Byte) : (s.setVThenFlag x a f).sp = s.sp := rfl
@[simp] theorem State.setVThenFlag_stack (x : Nibble) (a f : Byte) : (s.setVThenFlag x a f).stack = s.stack := rfl
@[simp] theorem State.setVThenFlag_dt (x : Nibble) (a f : Byte) : (s.setVThenFlag x a f).dt = s.dt := rfl
@[simp] theorem State.setVThenFlag_st (x : Nibble) (a f : Byte) : (s.setVThenFlag x a f).st = s.st := rfl
@[simp] theorem State.setVThenFlag_keys (x : Nibble) (a f : Byte) : (s.setVThenFlag x a f).keys = s.keys := rfl
@[simp] theorem State.setVThenFlag_display (x : Nibble) (a f : Byte) : (s.setVThenFlag x a f).display = s.display := rfl
@[simp] theorem State.setVThenFlag_mem (x : Nibble) (a f : Byte) : (s.setVThenFlag x a f).mem = s.mem := rfl
@[simp] theorem State.setVThenFlag_cfg (x : Nibble) (a f : Byte) : (s.setVThenFlag x a f).cfg = s.cfg := rfl
@[simp] theorem State.setVThenFlag_status (x : Nibble) (a f : Byte) : (s.setVThenFlag x a f).status = s.status := rfl
@[simp] theorem State.setVThenFlag_offered (x : Nibble) (a f : Byte) : (s.setVThenFlag x a f).offered = s.offered := rfl
@[simp] theorem State.setVThenFlag_drawn (x : Nibble) (a f : Byte) : (s.setVThenFlag x a f).drawn = s.drawn := rfl

/-! ## setRun -/

@[simp] theorem State.setRun_v (r : RunState) : (s.setRun r).v = s.v := rfl
@[simp] theorem State.setRun_i (r : RunState) : (s.setRun r).i = s.i := rfl
@[simp] theorem State.setRun_pc (r : RunState) : (s.setRun r).pc = s.pc := rfl
@[simp] theorem State.setRun_sp (r : RunState) : (s.setRun r).sp = s.sp := rfl
@[simp] theorem State.setRun_stack (r : RunState) : (s.setRun r).stack = s.stack := rfl
@[simp] theorem State.setRun_dt (r : RunState) : (s.setRun r).dt = s.dt := rfl
@[simp] theorem State.setRun_st (r : RunState) : (s.setRun r).st = s.st := rfl
@[simp] theorem State.setRun_keys (r : RunState) : (s.setRun r).keys = s.keys := rfl
@[simp] theorem State.setRun_display (r : RunState) : (s.setRun r).display = s.display := rfl
@[simp] theorem State.setRun_mem (r : RunState) : (s.setRun r).mem = s.mem := rfl
@[simp] theorem State.setRun_cfg (r : RunState) : (s.setRun r).cfg = s.cfg := rfl
@[simp] theorem State.setRun_status (r : RunState) : (s.setRun r).status = { s.status with run := r } := rfl
@[simp] theorem State.setRun_offered (r : RunState) : (s.setRun r).offered = s.offered := rfl
@[simp] theorem State.setRun_drawn (r : RunState) : (s.setRun r).drawn = s.drawn := rfl

/-! ## halt -/

@[simp] theorem State.halt_v (k : FaultKind) (f : Bool) (p o : Word) : (s.halt k f p o).v = s.v := rfl
@[simp] theorem State.halt_i (k : FaultKind) (f : Bool) (p o : Word) : (s.halt k f p o).i = s.i := rfl
@[simp] theorem State.halt_pc (k : FaultKind) (f : Bool) (p o : Word) : (s.halt k f p o).pc = s.pc := rfl
@[simp] theorem State.halt_sp (k : FaultKind) (f : Bool) (p o : Word) : (s.halt k f p o).sp = s.sp := rfl
@[simp] theorem State.halt_stack (k : FaultKind) (f : Bool) (p o : Word) : (s.halt k f p o).stack = s.stack := rfl
@[simp] theorem State.halt_dt (k : FaultKind) (f : Bool) (p o : Word) : (s.halt k f p o).dt = s.dt := rfl
@[simp] theorem State.halt_st (k : FaultKind) (f : Bool) (p o : Word) : (s.halt k f p o).st = s.st := rfl
@[simp] theorem State.halt_keys (k : FaultKind) (f : Bool) (p o : Word) : (s.halt k f p o).keys = s.keys := rfl
@[simp] theorem State.halt_display (k : FaultKind) (f : Bool) (p o : Word) : (s.halt k f p o).display = s.display := rfl
@[simp] theorem State.halt_mem (k : FaultKind) (f : Bool) (p o : Word) : (s.halt k f p o).mem = s.mem := rfl
@[simp] theorem State.halt_cfg (k : FaultKind) (f : Bool) (p o : Word) : (s.halt k f p o).cfg = s.cfg := rfl
@[simp] theorem State.halt_status (k : FaultKind) (f : Bool) (p o : Word) : (s.halt k f p o).status = ⟨.halted, some k, f, p, o⟩ := rfl
@[simp] theorem State.halt_offered (k : FaultKind) (f : Bool) (p o : Word) : (s.halt k f p o).offered = s.offered := rfl
@[simp] theorem State.halt_drawn (k : FaultKind) (f : Bool) (p o : Word) : (s.halt k f p o).drawn = s.drawn := rfl

/-! ## advance -/

@[simp] theorem State.advance_v : (s.advance).v = s.v := rfl
@[simp] theorem State.advance_i : (s.advance).i = s.i := rfl
@[simp] theorem State.advance_pc : (s.advance).pc = s.pc + 2#16 := rfl
@[simp] theorem State.advance_sp : (s.advance).sp = s.sp := rfl
@[simp] theorem State.advance_stack : (s.advance).stack = s.stack := rfl
@[simp] theorem State.advance_dt : (s.advance).dt = s.dt := rfl
@[simp] theorem State.advance_st : (s.advance).st = s.st := rfl
@[simp] theorem State.advance_keys : (s.advance).keys = s.keys := rfl
@[simp] theorem State.advance_display : (s.advance).display = s.display := rfl
@[simp] theorem State.advance_mem : (s.advance).mem = s.mem := rfl
@[simp] theorem State.advance_cfg : (s.advance).cfg = s.cfg := rfl
@[simp] theorem State.advance_status : (s.advance).status = s.status := rfl
@[simp] theorem State.advance_offered : (s.advance).offered = s.offered := rfl
@[simp] theorem State.advance_drawn : (s.advance).drawn = s.drawn := rfl

/-! ## push -/

@[simp] theorem State.push_v (w : Word) (h : s.sp.toNat < 16) : (s.push w h).v = s.v := rfl
@[simp] theorem State.push_i (w : Word) (h : s.sp.toNat < 16) : (s.push w h).i = s.i := rfl
@[simp] theorem State.push_pc (w : Word) (h : s.sp.toNat < 16) : (s.push w h).pc = s.pc := rfl
@[simp] theorem State.push_sp (w : Word) (h : s.sp.toNat < 16) : (s.push w h).sp = s.sp + 1#8 := rfl
@[simp] theorem State.push_stack (w : Word) (h : s.sp.toNat < 16) : (s.push w h).stack = s.stack.set s.sp.toNat w h := rfl
@[simp] theorem State.push_dt (w : Word) (h : s.sp.toNat < 16) : (s.push w h).dt = s.dt := rfl
@[simp] theorem State.push_st (w : Word) (h : s.sp.toNat < 16) : (s.push w h).st = s.st := rfl
@[simp] theorem State.push_keys (w : Word) (h : s.sp.toNat < 16) : (s.push w h).keys = s.keys := rfl
@[simp] theorem State.push_display (w : Word) (h : s.sp.toNat < 16) : (s.push w h).display = s.display := rfl
@[simp] theorem State.push_mem (w : Word) (h : s.sp.toNat < 16) : (s.push w h).mem = s.mem := rfl
@[simp] theorem State.push_cfg (w : Word) (h : s.sp.toNat < 16) : (s.push w h).cfg = s.cfg := rfl
@[simp] theorem State.push_status (w : Word) (h : s.sp.toNat < 16) : (s.push w h).status = s.status := rfl
@[simp] theorem State.push_offered (w : Word) (h : s.sp.toNat < 16) : (s.push w h).offered = s.offered := rfl
@[simp] theorem State.push_drawn (w : Word) (h : s.sp.toNat < 16) : (s.push w h).drawn = s.drawn := rfl

/-! ## popPc -/

@[simp] theorem State.popPc_v (h : s.sp.toNat - 1 < 16) : (s.popPc h).v = s.v := rfl
@[simp] theorem State.popPc_i (h : s.sp.toNat - 1 < 16) : (s.popPc h).i = s.i := rfl
@[simp] theorem State.popPc_pc (h : s.sp.toNat - 1 < 16) : (s.popPc h).pc = s.stack[s.sp.toNat - 1]'h := rfl
@[simp] theorem State.popPc_sp (h : s.sp.toNat - 1 < 16) : (s.popPc h).sp = s.sp - 1#8 := rfl
@[simp] theorem State.popPc_stack (h : s.sp.toNat - 1 < 16) : (s.popPc h).stack = s.stack := rfl
@[simp] theorem State.popPc_dt (h : s.sp.toNat - 1 < 16) : (s.popPc h).dt = s.dt := rfl
@[simp] theorem State.popPc_st (h : s.sp.toNat - 1 < 16) : (s.popPc h).st = s.st := rfl
@[simp] theorem State.popPc_keys (h : s.sp.toNat - 1 < 16) : (s.popPc h).keys = s.keys := rfl
@[simp] theorem State.popPc_display (h : s.sp.toNat - 1 < 16) : (s.popPc h).display = s.display := rfl
@[simp] theorem State.popPc_mem (h : s.sp.toNat - 1 < 16) : (s.popPc h).mem = s.mem := rfl
@[simp] theorem State.popPc_cfg (h : s.sp.toNat - 1 < 16) : (s.popPc h).cfg = s.cfg := rfl
@[simp] theorem State.popPc_status (h : s.sp.toNat - 1 < 16) : (s.popPc h).status = s.status := rfl
@[simp] theorem State.popPc_offered (h : s.sp.toNat - 1 < 16) : (s.popPc h).offered = s.offered := rfl
@[simp] theorem State.popPc_drawn (h : s.sp.toNat - 1 < 16) : (s.popPc h).drawn = s.drawn := rfl

/-! ## afterDraw -/

@[simp] theorem State.afterDraw_v : (s.afterDraw).v = s.v := rfl
@[simp] theorem State.afterDraw_i : (s.afterDraw).i = s.i := rfl
@[simp] theorem State.afterDraw_pc : (s.afterDraw).pc = s.pc := rfl
@[simp] theorem State.afterDraw_sp : (s.afterDraw).sp = s.sp := rfl
@[simp] theorem State.afterDraw_stack : (s.afterDraw).stack = s.stack := rfl
@[simp] theorem State.afterDraw_dt : (s.afterDraw).dt = s.dt := rfl
@[simp] theorem State.afterDraw_st : (s.afterDraw).st = s.st := rfl
@[simp] theorem State.afterDraw_keys : (s.afterDraw).keys = s.keys := rfl
@[simp] theorem State.afterDraw_display : (s.afterDraw).display = s.display := rfl
@[simp] theorem State.afterDraw_mem : (s.afterDraw).mem = s.mem := rfl
@[simp] theorem State.afterDraw_cfg : (s.afterDraw).cfg = s.cfg := rfl
@[simp] theorem State.afterDraw_status : (s.afterDraw).status = s.status := rfl
@[simp] theorem State.afterDraw_offered : (s.afterDraw).offered = s.offered.tail := rfl
@[simp] theorem State.afterDraw_drawn : (s.afterDraw).drawn = s.drawn + 1 := rfl

/-! ## storeAtPc -/

@[simp] theorem State.storeAtPc_v (w : Word) : (s.storeAtPc w).v = s.v := rfl
@[simp] theorem State.storeAtPc_i (w : Word) : (s.storeAtPc w).i = s.i := rfl
@[simp] theorem State.storeAtPc_pc (w : Word) : (s.storeAtPc w).pc = s.pc := rfl
@[simp] theorem State.storeAtPc_sp (w : Word) : (s.storeAtPc w).sp = s.sp := rfl
@[simp] theorem State.storeAtPc_stack (w : Word) : (s.storeAtPc w).stack = s.stack := rfl
@[simp] theorem State.storeAtPc_dt (w : Word) : (s.storeAtPc w).dt = s.dt := rfl
@[simp] theorem State.storeAtPc_st (w : Word) : (s.storeAtPc w).st = s.st := rfl
@[simp] theorem State.storeAtPc_keys (w : Word) : (s.storeAtPc w).keys = s.keys := rfl
@[simp] theorem State.storeAtPc_display (w : Word) : (s.storeAtPc w).display = s.display := rfl
@[simp] theorem State.storeAtPc_mem (w : Word) : (s.storeAtPc w).mem = s.mem.writeBytes s.pc.toNat (bytesOfWord w) := rfl
@[simp] theorem State.storeAtPc_cfg (w : Word) : (s.storeAtPc w).cfg = s.cfg := rfl
@[simp] theorem State.storeAtPc_status (w : Word) : (s.storeAtPc w).status = s.status := rfl
@[simp] theorem State.storeAtPc_offered (w : Word) : (s.storeAtPc w).offered = s.offered := rfl
@[simp] theorem State.storeAtPc_drawn (w : Word) : (s.storeAtPc w).drawn = s.drawn := rfl

/-! ## loadFirstRegs -/

@[simp] theorem State.loadFirstRegs_i (x : Nibble) : (s.loadFirstRegs x).i = s.i := rfl
@[simp] theorem State.loadFirstRegs_pc (x : Nibble) : (s.loadFirstRegs x).pc = s.pc := rfl
@[simp] theorem State.loadFirstRegs_sp (x : Nibble) : (s.loadFirstRegs x).sp = s.sp := rfl
@[simp] theorem State.loadFirstRegs_stack (x : Nibble) : (s.loadFirstRegs x).stack = s.stack := rfl
@[simp] theorem State.loadFirstRegs_dt (x : Nibble) : (s.loadFirstRegs x).dt = s.dt := rfl
@[simp] theorem State.loadFirstRegs_st (x : Nibble) : (s.loadFirstRegs x).st = s.st := rfl
@[simp] theorem State.loadFirstRegs_keys (x : Nibble) : (s.loadFirstRegs x).keys = s.keys := rfl
@[simp] theorem State.loadFirstRegs_display (x : Nibble) : (s.loadFirstRegs x).display = s.display := rfl
@[simp] theorem State.loadFirstRegs_mem (x : Nibble) : (s.loadFirstRegs x).mem = s.mem := rfl
@[simp] theorem State.loadFirstRegs_cfg (x : Nibble) : (s.loadFirstRegs x).cfg = s.cfg := rfl
@[simp] theorem State.loadFirstRegs_status (x : Nibble) : (s.loadFirstRegs x).status = s.status := rfl
@[simp] theorem State.loadFirstRegs_offered (x : Nibble) : (s.loadFirstRegs x).offered = s.offered := rfl
@[simp] theorem State.loadFirstRegs_drawn (x : Nibble) : (s.loadFirstRegs x).drawn = s.drawn := rfl

/-! ## drawSprite -/

@[simp] theorem State.drawSprite_i (x y n : Nibble) : (s.drawSprite x y n).i = s.i := rfl
@[simp] theorem State.drawSprite_pc (x y n : Nibble) : (s.drawSprite x y n).pc = s.pc := rfl
@[simp] theorem State.drawSprite_sp (x y n : Nibble) : (s.drawSprite x y n).sp = s.sp := rfl
@[simp] theorem State.drawSprite_stack (x y n : Nibble) : (s.drawSprite x y n).stack = s.stack := rfl
@[simp] theorem State.drawSprite_dt (x y n : Nibble) : (s.drawSprite x y n).dt = s.dt := rfl
@[simp] theorem State.drawSprite_st (x y n : Nibble) : (s.drawSprite x y n).st = s.st := rfl
@[simp] theorem State.drawSprite_keys (x y n : Nibble) : (s.drawSprite x y n).keys = s.keys := rfl
@[simp] theorem State.drawSprite_display (x y n : Nibble) : (s.drawSprite x y n).display = (drawPixels s.display false (drawList s x y n)).1 := rfl
@[simp] theorem State.drawSprite_mem (x y n : Nibble) : (s.drawSprite x y n).mem = s.mem := rfl
@[simp] theorem State.drawSprite_cfg (x y n : Nibble) : (s.drawSprite x y n).cfg = s.cfg := rfl
@[simp] theorem State.drawSprite_status (x y n : Nibble) : (s.drawSprite x y n).status = s.status := rfl
@[simp] theorem State.drawSprite_offered (x y n : Nibble) : (s.drawSprite x y n).offered = s.offered := rfl
@[simp] theorem State.drawSprite_drawn (x y n : Nibble) : (s.drawSprite x y n).drawn = s.drawn := rfl

/-! ## tick -/

@[simp] theorem State.tick_v : (s.tick).v = s.v := rfl
@[simp] theorem State.tick_i : (s.tick).i = s.i := rfl
@[simp] theorem State.tick_pc : (s.tick).pc = s.pc := rfl
@[simp] theorem State.tick_sp : (s.tick).sp = s.sp := rfl
@[simp] theorem State.tick_stack : (s.tick).stack = s.stack := rfl
@[simp] theorem State.tick_dt : (s.tick).dt = countDown s.dt := rfl
@[simp] theorem State.tick_st : (s.tick).st = countDown s.st := rfl
@[simp] theorem State.tick_keys : (s.tick).keys = s.keys := rfl
@[simp] theorem State.tick_display : (s.tick).display = s.display := rfl
@[simp] theorem State.tick_mem : (s.tick).mem = s.mem := rfl
@[simp] theorem State.tick_cfg : (s.tick).cfg = s.cfg := rfl
@[simp] theorem State.tick_status : (s.tick).status = s.status := rfl
@[simp] theorem State.tick_offered : (s.tick).offered = s.offered := rfl
@[simp] theorem State.tick_drawn : (s.tick).drawn = s.drawn := rfl

/-! ## keyEvent -/

@[simp] theorem State.keyEvent_v (k : Nibble) (d : Bool) : (s.keyEvent k d).v = s.v := rfl
@[simp] theorem State.keyEvent_i (k : Nibble) (d : Bool) : (s.keyEvent k d).i = s.i := rfl
@[simp] theorem State.keyEvent_pc (k : Nibble) (d : Bool) : (s.keyEvent k d).pc = s.pc := rfl
@[simp] theorem State.keyEvent_sp (k : Nibble) (d : Bool) : (s.keyEvent k d).sp = s.sp := rfl
@[simp] theorem State.keyEvent_stack (k : Nibble) (d : Bool) : (s.keyEvent k d).stack = s.stack := rfl
@[simp] theorem State.keyEvent_dt (k : Nibble) (d : Bool) : (s.keyEvent k d).dt = s.dt := rfl
@[simp] theorem State.keyEvent_st (k : Nibble) (d : Bool) : (s.keyEvent k d).st = s.st := rfl
@[simp] theorem State.keyEvent_keys (k : Nibble) (d : Bool) : (s.keyEvent k d).keys = s.keys.set k.toNat d k.isLt := rfl
@[simp] theorem State.keyEvent_display (k : Nibble) (d : Bool) : (s.keyEvent k d).display = s.display := rfl
@[simp] theorem State.keyEvent_mem (k : Nibble) (d : Bool) : (s.keyEvent k d).mem = s.mem := rfl
@[simp] theorem State.keyEvent_cfg (k : Nibble) (d : Bool) : (s.keyEvent k d).cfg = s.cfg := rfl
@[simp] theorem State.keyEvent_status (k : Nibble) (d : Bool) : (s.keyEvent k d).status = s.status := rfl
@[simp] theorem State.keyEvent_offered (k : Nibble) (d : Bool) : (s.keyEvent k d).offered = s.offered := rfl
@[simp] theorem State.keyEvent_drawn (k : Nibble) (d : Bool) : (s.keyEvent k d).drawn = s.drawn := rfl

/-! ## bumpI, which writes I under an option -/

@[simp] theorem State.bumpI_v (x : Nibble) : (s.bumpI x).v = s.v := by unfold State.bumpI; split <;> rfl
@[simp] theorem State.bumpI_pc (x : Nibble) : (s.bumpI x).pc = s.pc := by unfold State.bumpI; split <;> rfl
@[simp] theorem State.bumpI_sp (x : Nibble) : (s.bumpI x).sp = s.sp := by unfold State.bumpI; split <;> rfl
@[simp] theorem State.bumpI_stack (x : Nibble) : (s.bumpI x).stack = s.stack := by unfold State.bumpI; split <;> rfl
@[simp] theorem State.bumpI_dt (x : Nibble) : (s.bumpI x).dt = s.dt := by unfold State.bumpI; split <;> rfl
@[simp] theorem State.bumpI_st (x : Nibble) : (s.bumpI x).st = s.st := by unfold State.bumpI; split <;> rfl
@[simp] theorem State.bumpI_keys (x : Nibble) : (s.bumpI x).keys = s.keys := by unfold State.bumpI; split <;> rfl
@[simp] theorem State.bumpI_display (x : Nibble) : (s.bumpI x).display = s.display := by unfold State.bumpI; split <;> rfl
@[simp] theorem State.bumpI_mem (x : Nibble) : (s.bumpI x).mem = s.mem := by unfold State.bumpI; split <;> rfl
@[simp] theorem State.bumpI_cfg (x : Nibble) : (s.bumpI x).cfg = s.cfg := by unfold State.bumpI; split <;> rfl
@[simp] theorem State.bumpI_status (x : Nibble) : (s.bumpI x).status = s.status := by unfold State.bumpI; split <;> rfl
@[simp] theorem State.bumpI_offered (x : Nibble) : (s.bumpI x).offered = s.offered := by unfold State.bumpI; split <;> rfl
@[simp] theorem State.bumpI_drawn (x : Nibble) : (s.bumpI x).drawn = s.drawn := by unfold State.bumpI; split <;> rfl

/-- With LOADSTORE_INCREMENTS_I. -/
theorem State.bumpI_of_true (x : Nibble) (h : s.cfg.loadStoreIncrementsI = true) :
    s.bumpI x = { s with i := s.i + x.setWidth 16 + 1#16 } := by simp [State.bumpI, h]

/-- Without it. -/
theorem State.bumpI_of_false (x : Nibble) (h : s.cfg.loadStoreIncrementsI = false) : s.bumpI x = s := by
  simp [State.bumpI, h]

/-- I after the optional increment. -/
@[simp] theorem State.bumpI_i (x : Nibble) : (s.bumpI x).i =
    if s.cfg.loadStoreIncrementsI = true then s.i + x.setWidth 16 + 1#16 else s.i := by
  unfold State.bumpI; split <;> rfl

/-! ## afterFault, which writes STATUS only -/

@[simp] theorem State.afterFault_v (k : FaultKind) (o : Word) : (s.afterFault k o).v = s.v := by unfold State.afterFault; split <;> rfl
@[simp] theorem State.afterFault_i (k : FaultKind) (o : Word) : (s.afterFault k o).i = s.i := by unfold State.afterFault; split <;> rfl
@[simp] theorem State.afterFault_pc (k : FaultKind) (o : Word) : (s.afterFault k o).pc = s.pc := by unfold State.afterFault; split <;> rfl
@[simp] theorem State.afterFault_sp (k : FaultKind) (o : Word) : (s.afterFault k o).sp = s.sp := by unfold State.afterFault; split <;> rfl
@[simp] theorem State.afterFault_stack (k : FaultKind) (o : Word) : (s.afterFault k o).stack = s.stack := by unfold State.afterFault; split <;> rfl
@[simp] theorem State.afterFault_dt (k : FaultKind) (o : Word) : (s.afterFault k o).dt = s.dt := by unfold State.afterFault; split <;> rfl
@[simp] theorem State.afterFault_st (k : FaultKind) (o : Word) : (s.afterFault k o).st = s.st := by unfold State.afterFault; split <;> rfl
@[simp] theorem State.afterFault_keys (k : FaultKind) (o : Word) : (s.afterFault k o).keys = s.keys := by unfold State.afterFault; split <;> rfl
@[simp] theorem State.afterFault_display (k : FaultKind) (o : Word) : (s.afterFault k o).display = s.display := by unfold State.afterFault; split <;> rfl
@[simp] theorem State.afterFault_mem (k : FaultKind) (o : Word) : (s.afterFault k o).mem = s.mem := by unfold State.afterFault; split <;> rfl
@[simp] theorem State.afterFault_cfg (k : FaultKind) (o : Word) : (s.afterFault k o).cfg = s.cfg := by unfold State.afterFault; split <;> rfl
@[simp] theorem State.afterFault_offered (k : FaultKind) (o : Word) : (s.afterFault k o).offered = s.offered := by unfold State.afterFault; split <;> rfl
@[simp] theorem State.afterFault_drawn (k : FaultKind) (o : Word) : (s.afterFault k o).drawn = s.drawn := by unfold State.afterFault; split <;> rfl

/-! ## Reading a register after a write -/

@[simp] theorem State.getV_setV (x r : Nibble) (b : Byte) :
    (s.setV x b).getV r = if r = x then b else s.getV r := by
  simp only [State.getV, State.setV, Vector.getElem_set]
  by_cases h : r = x
  · simp [h]
  · have : x.toNat ≠ r.toNat := fun e => h (BitVec.eq_of_toNat_eq e).symm
    simp [h, this]

@[simp] theorem State.getV_setVThenFlag (x r : Nibble) (a f : Byte) :
    (s.setVThenFlag x a f).getV r = if r = flagReg then f else if r = x then a else s.getV r := by
  simp [State.setVThenFlag]

@[simp] theorem State.getV_loadFirstRegs (x r : Nibble) :
    (s.loadFirstRegs x).getV r = if r.toNat ≤ x.toNat then s.mem.read (s.base + r.toNat) else s.getV r := by
  simp [State.getV, State.loadFirstRegs]

/-- Two states with the same register file read the same registers. -/
theorem State.getV_congr (t : State) (h : t.v = s.v) (r : Nibble) : t.getV r = s.getV r := by
  simp [State.getV, h]

@[simp] theorem State.key_keyEvent (k j : Nibble) (d : Bool) :
    (s.keyEvent k d).key j = if j = k then d else s.key j := by
  simp only [State.key, State.keyEvent, Vector.getElem_set]
  by_cases h : j = k
  · simp [h]
  · have : k.toNat ≠ j.toNat := fun e => h (BitVec.eq_of_toNat_eq e).symm
    simp [h, this]

end Sys2Proof.Machine
end

