-- ==== Sys2Proof/Laws/Ops.lean ====
section
/-! SUPPORT. One lemma for each shared operation: everything it can answer. -/

namespace Sys2Proof.Machine

variable {s t : State}

/-! ## Endings -/

theorem complete_eq (s : State) : complete s = .next (s.setRun .running) := rfl

theorem block_eq (s : State) : block s = .next ({ s with pc := s.pc - 2#16 }.setRun .awaitingKey) := rfl

theorem raise_eq (k : FaultKind) (o : Word) (s : State) : raise k o s = .next (s.afterFault k o) := rfl

/-- A fault that halts. -/
theorem State.afterFault_of_halts {k : FaultKind} (o : Word) (h : k.halts s.cfg.strict = true) :
    s.afterFault k o = s.halt k false (s.pc - 2#16) o := by simp [State.afterFault, h]

/-- A fault that is ignored. -/
theorem State.afterFault_of_ignored {k : FaultKind} (o : Word) (h : k.halts s.cfg.strict = false) :
    s.afterFault k o = s.setRun .running := by simp [State.afterFault, h]

/-- What a raised fault can leave. -/
theorem raise_cases {k : FaultKind} {o : Word} (h : raise k o s = .next t) :
    (k.halts s.cfg.strict = true ∧ t = s.halt k false (s.pc - 2#16) o) ∨
    (k.halts s.cfg.strict = false ∧ t = s.setRun .running) := by
  rw [raise_eq, Host.Outcome.next.injEq] at h
  cases hk : k.halts s.cfg.strict
  · exact .inr ⟨rfl, by rw [← h, State.afterFault_of_ignored o hk]⟩
  · exact .inl ⟨rfl, by rw [← h, State.afterFault_of_halts o hk]⟩

/-- What a skip can leave. -/
theorem skipIf_eq (c : Bool) (s : State) :
    skipIf c s = .next ((if c then { s with pc := s.pc + 2#16 } else s).setRun .running) := by
  cases c <;> rfl

/-! ## Range checks -/

theorem inRange_iff (a n : Nat) : inRange a n = true ↔ n = 0 ∨ a + n ≤ 4096 := by
  simp only [inRange, Bool.or_eq_true, beq_iff_eq, decide_eq_true_eq]
  rfl

theorem inRange_eq_false_iff (a n : Nat) : inRange a n = false ↔ 0 < n ∧ 4096 < a + n := by
  rw [← Bool.not_eq_true, inRange_iff]; omega

theorem State.iInRange_iff (s : State) (n : Nat) : s.iInRange n = true ↔ n = 0 ∨ s.i.toNat + n ≤ 4096 :=
  inRange_iff _ _

theorem State.iInRange_eq_false_iff (s : State) (n : Nat) : s.iInRange n = false ↔ 0 < n ∧ 4096 < s.i.toNat + n :=
  inRange_eq_false_iff _ _

/-! ## Fetch -/

theorem fetchWord_eq_some {w : Word} :
    fetchWord s = some w ↔ s.pc.toNat ≤ 0xFFE ∧ w = s.mem.readWord s.pc.toNat := by
  unfold fetchWord
  cases h : inRange s.pc.toNat 2
  · rw [inRange_eq_false_iff] at h; simp; omega
  · rw [inRange_iff] at h; simp [eq_comm]; omega

theorem fetchWord_eq_none : fetchWord s = none ↔ 0xFFF ≤ s.pc.toNat := by
  unfold fetchWord
  cases h : inRange s.pc.toNat 2
  · rw [inRange_eq_false_iff] at h; simp; omega
  · rw [inRange_iff] at h; simp; omega

/-! ## Keypad -/

/-- The lowest pressed key, when there is one. -/
theorem State.lowestPressed_eq_some {k : Nat} : s.lowestPressed = some k ↔
    ∃ h : k < 16, s.keys[k] = true ∧ ∀ j (hj : j < k), s.keys[j] = false := by
  simp only [State.lowestPressed, List.findIdx?_eq_some_iff_getElem, Vector.length_toList, Vector.getElem_toList,
    id, Bool.not_eq_true]

theorem State.lowestPressed_eq_none : s.lowestPressed = none ↔ ∀ k : Nibble, s.key k = false := by
  simp only [State.lowestPressed, List.findIdx?_eq_none_iff, State.key, id]
  constructor
  · intro h k; exact h _ (by simp)
  · intro h x hx
    obtain ⟨i, hi, rfl⟩ := List.mem_iff_getElem.mp hx
    have hi' : i < 16 := by simpa using hi
    have := h (BitVec.ofNat 4 i)
    simpa [Nat.mod_eq_of_lt hi'] using this

/-! ## The step -/

/-- Everything a step of the block can answer, by the way it goes. -/
theorem step_cases (s : State) :
    (s.status.run = .halted ∧ step s = .next s) ∨
    (s.status.run ≠ .halted ∧ 0xFFF ≤ s.pc.toNat ∧ step s = .next (haltAtFetch s)) ∨
    (s.status.run ≠ .halted ∧ ∃ w e, fetchWord s = some w ∧ decodeWord w = .error e ∧
      step s = raise .decodeFault w s.advance) ∨
    (s.status.run ≠ .halted ∧ ∃ w i, fetchWord s = some w ∧ decodeWord w = .ok i ∧ step s = exec i s.advance) := by
  by_cases hr : s.status.run = .halted
  · exact .inl ⟨hr, by simp [step, hr]⟩
  · cases hf : fetchWord s with
    | none => exact .inr (.inl ⟨hr, fetchWord_eq_none.mp hf, by simp [step, hr, hf]⟩)
    | some w =>
      cases hd : decodeWord w with
      | error e => exact .inr (.inr (.inl ⟨hr, w, e, rfl, hd, by simp [step, hr, hf, decodeAndExec, hd]⟩))
      | ok i => exact .inr (.inr (.inr ⟨hr, w, i, rfl, hd, by simp [step, hr, hf, decodeAndExec, hd]⟩))

/-- A step of a running block whose next instruction is known. -/
theorem step_of_nextInstr {i : Instr} (h : s.nextInstr i) : step s = exec i s.advance := by
  obtain ⟨hr, w, hf, hd⟩ := h
  simp [step, hr, hf, decodeAndExec, hd]

end Sys2Proof.Machine
end

