-- ==== Sys2Proof/Laws/PerInstr.lean ====
section
/-! SUPPORT. Per instruction: the word of a well-formed instruction belongs to its row of the opcode table
(30_encoding.md R69). -/

namespace Sys2Proof.Laws

/-! ## The masks of R69 on each word form -/

theorem encodeNnn_mask_op (op : Nibble) (a : Addr) : encodeNnn op a &&& 0xF000#16 = encodeNnn op 0 := by
  apply BitVec.eq_of_getLsbD_eq
  intro i hi
  simp only [encodeNnn, BitVec.getLsbD_and, BitVec.getLsbD_append]
  interval_cases i <;> simp

theorem encodeXnn_mask_op (op x : Nibble) (nn : Byte) : encodeXnn op x nn &&& 0xF000#16 = encodeXnn op 0 0 := by
  apply BitVec.eq_of_getLsbD_eq
  intro i hi
  simp only [encodeXnn, BitVec.getLsbD_and, BitVec.getLsbD_append]
  interval_cases i <;> simp

theorem encodeXnn_mask_opNn (op x : Nibble) (nn : Byte) : encodeXnn op x nn &&& 0xF0FF#16 = encodeXnn op 0 nn := by
  apply BitVec.eq_of_getLsbD_eq
  intro i hi
  simp only [encodeXnn, BitVec.getLsbD_and, BitVec.getLsbD_append]
  interval_cases i <;> simp

theorem encodeXyn_mask_op (op x y n : Nibble) : encodeXyn op x y n &&& 0xF000#16 = encodeXyn op 0 0 0 := by
  apply BitVec.eq_of_getLsbD_eq
  intro i hi
  simp only [encodeXyn, BitVec.getLsbD_and, BitVec.getLsbD_append]
  interval_cases i <;> simp

theorem encodeXyn_mask_opN (op x y n : Nibble) : encodeXyn op x y n &&& 0xF00F#16 = encodeXyn op 0 0 n := by
  apply BitVec.eq_of_getLsbD_eq
  intro i hi
  simp only [encodeXyn, BitVec.getLsbD_and, BitVec.getLsbD_append]
  interval_cases i <;> simp

/-- Two words with an address field are equal when their fields are. -/
theorem encodeNnn_injective {op : Nibble} {a b : Addr} (h : encodeNnn op a = encodeNnn op b) : a = b := by
  simpa using congrArg nnnField h

/-- The word of a well-formed instruction belongs to the instruction's row (R69). -/
def EncodesRow.Statement (i : Instr) : Prop := i.wellFormed = true → i.row.holds (encodeWord i) = true

theorem EncodesRow.cls : EncodesRow.Statement (.cls) := by
  intro _; decide

theorem EncodesRow.ret : EncodesRow.Statement (.ret) := by
  intro _; decide

theorem EncodesRow.sys (nnn : Addr) : EncodesRow.Statement (.sys nnn) := by
  intro h
  simp only [Instr.wellFormed, Bool.and_eq_true, bne_iff_ne, ne_eq] at h
  have h1 : encodeNnn 0x0#4 nnn ≠ 0x00E0#16 := fun e => h.1 (encodeNnn_injective (op := 0x0#4) (b := 0x0E0#12) e)
  have h2 : encodeNnn 0x0#4 nnn ≠ 0x00EE#16 := fun e => h.2 (encodeNnn_injective (op := 0x0#4) (b := 0x0EE#12) e)
  have h0 : encodeNnn 0x0#4 nnn &&& 0xF000#16 = 0x0000#16 := encodeNnn_mask_op _ _
  simp only [Instr.row, OpcodeRow.holds, encodeWord, Bool.and_eq_true, beq_iff_eq, Bool.not_eq_true',
    List.contains_eq_mem, List.mem_cons, List.not_mem_nil, or_false, decide_eq_false_iff_not, not_or]
  exact ⟨h0, h1, h2⟩

theorem EncodesRow.jp (nnn : Addr) : EncodesRow.Statement (.jp nnn) := by
  intro _
  simp only [Instr.row, OpcodeRow.holds, encodeWord, List.contains_nil, Bool.not_false, Bool.and_true, beq_iff_eq]
  exact encodeNnn_mask_op _ _

theorem EncodesRow.call (nnn : Addr) : EncodesRow.Statement (.call nnn) := by
  intro _
  simp only [Instr.row, OpcodeRow.holds, encodeWord, List.contains_nil, Bool.not_false, Bool.and_true, beq_iff_eq]
  exact encodeNnn_mask_op _ _

theorem EncodesRow.seImm (x : Nibble) (nn : Byte) : EncodesRow.Statement (.seImm x nn) := by
  intro _
  simp only [Instr.row, OpcodeRow.holds, encodeWord, List.contains_nil, Bool.not_false, Bool.and_true, beq_iff_eq]
  exact encodeXnn_mask_op _ _ _

theorem EncodesRow.sneImm (x : Nibble) (nn : Byte) : EncodesRow.Statement (.sneImm x nn) := by
  intro _
  simp only [Instr.row, OpcodeRow.holds, encodeWord, List.contains_nil, Bool.not_false, Bool.and_true, beq_iff_eq]
  exact encodeXnn_mask_op _ _ _

theorem EncodesRow.seReg (x : Nibble) (y : Nibble) : EncodesRow.Statement (.seReg x y) := by
  intro _
  simp only [Instr.row, OpcodeRow.holds, encodeWord, List.contains_nil, Bool.not_false, Bool.and_true, beq_iff_eq]
  exact encodeXyn_mask_opN _ _ _ _

theorem EncodesRow.ldImm (x : Nibble) (nn : Byte) : EncodesRow.Statement (.ldImm x nn) := by
  intro _
  simp only [Instr.row, OpcodeRow.holds, encodeWord, List.contains_nil, Bool.not_false, Bool.and_true, beq_iff_eq]
  exact encodeXnn_mask_op _ _ _

theorem EncodesRow.addImm (x : Nibble) (nn : Byte) : EncodesRow.Statement (.addImm x nn) := by
  intro _
  simp only [Instr.row, OpcodeRow.holds, encodeWord, List.contains_nil, Bool.not_false, Bool.and_true, beq_iff_eq]
  exact encodeXnn_mask_op _ _ _

theorem EncodesRow.ldReg (x : Nibble) (y : Nibble) : EncodesRow.Statement (.ldReg x y) := by
  intro _
  simp only [Instr.row, OpcodeRow.holds, encodeWord, List.contains_nil, Bool.not_false, Bool.and_true, beq_iff_eq]
  exact encodeXyn_mask_opN _ _ _ _

theorem EncodesRow.orReg (x : Nibble) (y : Nibble) : EncodesRow.Statement (.orReg x y) := by
  intro _
  simp only [Instr.row, OpcodeRow.holds, encodeWord, List.contains_nil, Bool.not_false, Bool.and_true, beq_iff_eq]
  exact encodeXyn_mask_opN _ _ _ _

theorem EncodesRow.andReg (x : Nibble) (y : Nibble) : EncodesRow.Statement (.andReg x y) := by
  intro _
  simp only [Instr.row, OpcodeRow.holds, encodeWord, List.contains_nil, Bool.not_false, Bool.and_true, beq_iff_eq]
  exact encodeXyn_mask_opN _ _ _ _

theorem EncodesRow.xorReg (x : Nibble) (y : Nibble) : EncodesRow.Statement (.xorReg x y) := by
  intro _
  simp only [Instr.row, OpcodeRow.holds, encodeWord, List.contains_nil, Bool.not_false, Bool.and_true, beq_iff_eq]
  exact encodeXyn_mask_opN _ _ _ _

theorem EncodesRow.addReg (x : Nibble) (y : Nibble) : EncodesRow.Statement (.addReg x y) := by
  intro _
  simp only [Instr.row, OpcodeRow.holds, encodeWord, List.contains_nil, Bool.not_false, Bool.and_true, beq_iff_eq]
  exact encodeXyn_mask_opN _ _ _ _

theorem EncodesRow.subReg (x : Nibble) (y : Nibble) : EncodesRow.Statement (.subReg x y) := by
  intro _
  simp only [Instr.row, OpcodeRow.holds, encodeWord, List.contains_nil, Bool.not_false, Bool.and_true, beq_iff_eq]
  exact encodeXyn_mask_opN _ _ _ _

theorem EncodesRow.shr (x : Nibble) (y : Nibble) : EncodesRow.Statement (.shr x y) := by
  intro _
  simp only [Instr.row, OpcodeRow.holds, encodeWord, List.contains_nil, Bool.not_false, Bool.and_true, beq_iff_eq]
  exact encodeXyn_mask_opN _ _ _ _

theorem EncodesRow.subn (x : Nibble) (y : Nibble) : EncodesRow.Statement (.subn x y) := by
  intro _
  simp only [Instr.row, OpcodeRow.holds, encodeWord, List.contains_nil, Bool.not_false, Bool.and_true, beq_iff_eq]
  exact encodeXyn_mask_opN _ _ _ _

theorem EncodesRow.shl (x : Nibble) (y : Nibble) : EncodesRow.Statement (.shl x y) := by
  intro _
  simp only [Instr.row, OpcodeRow.holds, encodeWord, List.contains_nil, Bool.not_false, Bool.and_true, beq_iff_eq]
  exact encodeXyn_mask_opN _ _ _ _

theorem EncodesRow.sneReg (x : Nibble) (y : Nibble) : EncodesRow.Statement (.sneReg x y) := by
  intro _
  simp only [Instr.row, OpcodeRow.holds, encodeWord, List.contains_nil, Bool.not_false, Bool.and_true, beq_iff_eq]
  exact encodeXyn_mask_opN _ _ _ _

theorem EncodesRow.ldI (nnn : Addr) : EncodesRow.Statement (.ldI nnn) := by
  intro _
  simp only [Instr.row, OpcodeRow.holds, encodeWord, List.contains_nil, Bool.not_false, Bool.and_true, beq_iff_eq]
  exact encodeNnn_mask_op _ _

theorem EncodesRow.jpV0 (nnn : Addr) : EncodesRow.Statement (.jpV0 nnn) := by
  intro _
  simp only [Instr.row, OpcodeRow.holds, encodeWord, List.contains_nil, Bool.not_false, Bool.and_true, beq_iff_eq]
  exact encodeNnn_mask_op _ _

theorem EncodesRow.rnd (x : Nibble) (nn : Byte) : EncodesRow.Statement (.rnd x nn) := by
  intro _
  simp only [Instr.row, OpcodeRow.holds, encodeWord, List.contains_nil, Bool.not_false, Bool.and_true, beq_iff_eq]
  exact encodeXnn_mask_op _ _ _

theorem EncodesRow.drw (x : Nibble) (y : Nibble) (n : Nibble) : EncodesRow.Statement (.drw x y n) := by
  intro _
  simp only [Instr.row, OpcodeRow.holds, encodeWord, List.contains_nil, Bool.not_false, Bool.and_true, beq_iff_eq]
  exact encodeXyn_mask_op _ _ _ _

theorem EncodesRow.skp (x : Nibble) : EncodesRow.Statement (.skp x) := by
  intro _
  simp only [Instr.row, OpcodeRow.holds, encodeWord, List.contains_nil, Bool.not_false, Bool.and_true, beq_iff_eq]
  exact encodeXnn_mask_opNn _ _ _

theorem EncodesRow.sknp (x : Nibble) : EncodesRow.Statement (.sknp x) := by
  intro _
  simp only [Instr.row, OpcodeRow.holds, encodeWord, List.contains_nil, Bool.not_false, Bool.and_true, beq_iff_eq]
  exact encodeXnn_mask_opNn _ _ _

theorem EncodesRow.ldVxDt (x : Nibble) : EncodesRow.Statement (.ldVxDt x) := by
  intro _
  simp only [Instr.row, OpcodeRow.holds, encodeWord, List.contains_nil, Bool.not_false, Bool.and_true, beq_iff_eq]
  exact encodeXnn_mask_opNn _ _ _

theorem EncodesRow.ldVxK (x : Nibble) : EncodesRow.Statement (.ldVxK x) := by
  intro _
  simp only [Instr.row, OpcodeRow.holds, encodeWord, List.contains_nil, Bool.not_false, Bool.and_true, beq_iff_eq]
  exact encodeXnn_mask_opNn _ _ _

theorem EncodesRow.ldDtVx (x : Nibble) : EncodesRow.Statement (.ldDtVx x) := by
  intro _
  simp only [Instr.row, OpcodeRow.holds, encodeWord, List.contains_nil, Bool.not_false, Bool.and_true, beq_iff_eq]
  exact encodeXnn_mask_opNn _ _ _

theorem EncodesRow.ldStVx (x : Nibble) : EncodesRow.Statement (.ldStVx x) := by
  intro _
  simp only [Instr.row, OpcodeRow.holds, encodeWord, List.contains_nil, Bool.not_false, Bool.and_true, beq_iff_eq]
  exact encodeXnn_mask_opNn _ _ _

theorem EncodesRow.addI (x : Nibble) : EncodesRow.Statement (.addI x) := by
  intro _
  simp only [Instr.row, OpcodeRow.holds, encodeWord, List.contains_nil, Bool.not_false, Bool.and_true, beq_iff_eq]
  exact encodeXnn_mask_opNn _ _ _

theorem EncodesRow.ldF (x : Nibble) : EncodesRow.Statement (.ldF x) := by
  intro _
  simp only [Instr.row, OpcodeRow.holds, encodeWord, List.contains_nil, Bool.not_false, Bool.and_true, beq_iff_eq]
  exact encodeXnn_mask_opNn _ _ _

theorem EncodesRow.ldB (x : Nibble) : EncodesRow.Statement (.ldB x) := by
  intro _
  simp only [Instr.row, OpcodeRow.holds, encodeWord, List.contains_nil, Bool.not_false, Bool.and_true, beq_iff_eq]
  exact encodeXnn_mask_opNn _ _ _

theorem EncodesRow.storeRegs (x : Nibble) : EncodesRow.Statement (.storeRegs x) := by
  intro _
  simp only [Instr.row, OpcodeRow.holds, encodeWord, List.contains_nil, Bool.not_false, Bool.and_true, beq_iff_eq]
  exact encodeXnn_mask_opNn _ _ _

theorem EncodesRow.loadRegs (x : Nibble) : EncodesRow.Statement (.loadRegs x) := by
  intro _
  simp only [Instr.row, OpcodeRow.holds, encodeWord, List.contains_nil, Bool.not_false, Bool.and_true, beq_iff_eq]
  exact encodeXnn_mask_opNn _ _ _

end Sys2Proof.Laws
end

