-- ==== Sys2Proof/Laws/Sprite.lean ====
section
/-! SUPPORT. The sprite as a set of pixels: which elements DRW touches, that it touches none twice, and what the
toggling leaves (44_display.md R113, R115). -/

namespace Sys2Proof.Machine

/-! ## Toggling -/

@[simp] theorem pixelOf_clear (p : Nat) : pixelOf Display.clear p = false := by
  simp only [pixelOf, Display.clear]
  split <;> simp

theorem pixelOf_of_ge (d : Display) (p : Nat) (h : 2048 ≤ p) : pixelOf d p = false := by
  simp only [pixelOf]
  rw [dif_neg (by omega)]

@[simp] theorem pixelOf_togglePixel (d : Display) (p q : Nat) (hq : q < 2048) :
    pixelOf (togglePixel d p) q = (pixelOf d q ^^ decide (q = p)) := by
  have hq' : q / 64 < 32 := by omega
  simp only [pixelOf, togglePixel]
  by_cases hp : p / 64 < 32
  · simp only [hp, hq', dite_true, Vector.getElem_set]
    by_cases hr : p / 64 = q / 64
    · simp only [hr, if_true, BitVec.getLsbD_xor, BitVec.getLsbD_twoPow]
      have : (decide (p % 64 < 64) && decide (p % 64 = q % 64)) = decide (q = p) := by
        rw [Bool.eq_iff_iff]; simp; omega
      simp only [this]
    · have : ¬ q = p := fun e => hr (by rw [e])
      simp [hr, this]
  · have : ¬ q = p := by omega
    simp [hp, this]

/-- A display is its pixels. -/
theorem display_ext (d e : Display) (h : ∀ p < 2048, pixelOf d p = pixelOf e p) : d = e := by
  apply Vector.ext
  intro r hr
  apply BitVec.eq_of_getLsbD_eq
  intro c hc
  have := h (r * 64 + c) (by omega)
  simp only [pixelOf] at this
  have e1 : (r * 64 + c) / 64 = r := by omega
  have e2 : (r * 64 + c) % 64 = c := by omega
  simpa [e1, e2, hr] using this

/-- After a run of toggles of distinct elements, exactly those are flipped. -/
theorem pixelOf_drawPixels (d : Display) (hit : Bool) (ps : List Nat) (hn : ps.Nodup) (q : Nat) (hq : q < 2048) :
    pixelOf (drawPixels d hit ps).1 q = (pixelOf d q ^^ decide (q ∈ ps)) := by
  induction ps generalizing d hit with
  | nil => simp [drawPixels]
  | cons p ps ih =>
    rw [List.nodup_cons] at hn
    rw [drawPixels, ih _ _ hn.2, pixelOf_togglePixel _ _ _ hq]
    by_cases h : q = p
    · subst h; simp [hn.1]
    · simp [h]

/-- The collision flag after a run of toggles of distinct elements: whether one of them was on. -/
theorem drawPixels_hit (d : Display) (hit : Bool) (ps : List Nat) (hn : ps.Nodup) (hp : ∀ p ∈ ps, p < 2048) :
    (drawPixels d hit ps).2 = (hit || ps.any (pixelOf d)) := by
  induction ps generalizing d hit with
  | nil => simp [drawPixels]
  | cons p ps ih =>
    rw [List.nodup_cons] at hn
    rw [drawPixels, ih _ _ hn.2 (fun q hq => hp q (by simp [hq]))]
    have e : ps.any (pixelOf (togglePixel d p)) = ps.any (pixelOf d) := by
      rw [Bool.eq_iff_iff]
      simp only [List.any_eq_true]
      refine exists_congr fun q => and_congr_right fun hq => ?_
      have : q ≠ p := fun e => hn.1 (e ▸ hq)
      simp [pixelOf_togglePixel d p q (hp q (by simp [hq])), this]
    simp [e, Bool.or_assoc]

/-- Toggling the same distinct elements twice restores the display. -/
theorem drawPixels_twice (d : Display) (h h' : Bool) (ps : List Nat) (hn : ps.Nodup) :
    (drawPixels (drawPixels d h ps).1 h' ps).1 = d := by
  apply display_ext
  intro p hp
  rw [pixelOf_drawPixels _ _ _ hn _ hp, pixelOf_drawPixels _ _ _ hn _ hp]
  simp

/-! ## The elements of a sprite -/

theorem pixelIndex_lt (c r : Nat) : pixelIndex c r < 2048 := by
  simp only [pixelIndex, Config.rows, Config.columns]; omega

theorem mem_rowPixels {ox row p : Nat} {b : Byte} : p ∈ rowPixels ox row b ↔
    ∃ c < 8, b.getLsbD (7 - c) = true ∧ p = pixelIndex (ox + c) row := by
  simp only [rowPixels, List.mem_map, List.mem_filter, List.mem_range]
  constructor
  · rintro ⟨c, ⟨hc, hb⟩, rfl⟩; exact ⟨c, hc, hb, rfl⟩
  · rintro ⟨c, hc, hb, rfl⟩; exact ⟨c, ⟨hc, hb⟩, rfl⟩

theorem mem_spritePixels {ox oy p : Nat} {bs : List Byte} : p ∈ spritePixels ox oy bs ↔
    ∃ (r : Nat) (h : r < bs.length) (c : Nat), c < 8 ∧ bs[r].getLsbD (7 - c) = true ∧
      p = pixelIndex (ox + c) (oy + r) := by
  induction bs generalizing oy with
  | nil => simp [spritePixels]
  | cons b bs ih =>
    rw [spritePixels, List.mem_append, mem_rowPixels, ih]
    constructor
    · rintro (⟨c, hc, hb, rfl⟩ | ⟨r, hr, c, hc, hb, rfl⟩)
      · exact ⟨0, by simp, c, hc, by simpa using hb, rfl⟩
      · exact ⟨r + 1, by simpa using hr, c, hc, by simpa using hb, by rw [Nat.add_assoc, Nat.add_comm 1 r]⟩
    · rintro ⟨r, hr, c, hc, hb, rfl⟩
      cases r with
      | zero => exact .inl ⟨c, hc, by simpa using hb, rfl⟩
      | succ r =>
        refine .inr ⟨r, by simpa using hr, c, hc, by simpa using hb, ?_⟩
        rw [Nat.add_assoc, Nat.add_comm 1 r]

theorem spritePixels_lt {ox oy p : Nat} {bs : List Byte} (h : p ∈ spritePixels ox oy bs) : p < 2048 := by
  obtain ⟨r, _, c, _, _, rfl⟩ := mem_spritePixels.mp h
  exact pixelIndex_lt _ _

theorem nodup_rowPixels (ox row : Nat) (b : Byte) : (rowPixels ox row b).Nodup := by
  apply List.Nodup.map_on
  · intro a ha c hc e
    simp only [List.mem_filter, List.mem_range] at ha hc
    simp only [pixelIndex, Config.rows, Config.columns] at e
    omega
  · exact List.Nodup.filter _ List.nodup_range

/-- A sprite of at most 32 rows touches no element twice (R115). -/
theorem nodup_spritePixels (ox oy : Nat) (bs : List Byte) (h : bs.length ≤ 32) : (spritePixels ox oy bs).Nodup := by
  induction bs generalizing oy with
  | nil => simp [spritePixels]
  | cons b bs ih =>
    simp only [List.length_cons] at h
    rw [spritePixels]
    refine List.Nodup.append (nodup_rowPixels ox oy b) (ih _ (by omega)) ?_
    intro p hp hq
    obtain ⟨c, hc, _, e⟩ := mem_rowPixels.mp hp
    obtain ⟨r, hr, c', hc', _, e'⟩ := mem_spritePixels.mp hq
    simp only [pixelIndex, Config.rows, Config.columns] at e e'
    omega

/-! ## The elements of a DRW -/

theorem nodup_drawList (s : State) (x y n : Nibble) : (drawList s x y n).Nodup :=
  nodup_spritePixels _ _ _ (by simpa using le_trans (Nat.le_of_lt n.isLt) (by decide))

theorem drawList_lt (s : State) (x y n : Nibble) : ∀ p ∈ drawList s x y n, p < 2048 :=
  fun _ h => spritePixels_lt h

theorem mem_drawList {s : State} {x y n : Nibble} {p : Nat} : p ∈ drawList s x y n ↔
    ∃ r c, r < n.toNat ∧ c < 8 ∧ (s.mem.read (s.base + r)).getLsbD (7 - c) = true ∧
      p = pixelIndex ((s.getV x).toNat % 64 + c) ((s.getV y).toNat % 32 + r) := by
  rw [drawList, mem_spritePixels]
  constructor
  · rintro ⟨r, hr, c, hc, hb, rfl⟩
    exact ⟨r, c, by simpa using hr, hc, by simpa using hb, rfl⟩
  · rintro ⟨r, c, hr, hc, hb, rfl⟩
    exact ⟨r, by simpa using hr, c, hc, by simpa using hb, rfl⟩

end Sys2Proof.Machine
end

