-- ==== Sys2Proof/Tests/Slice0.lean ====
section
/-! SUPPORT. Tests. Expected values come from 95_test_vectors.md (the name of the vector stands in the docstring) or are
written out by hand from the rule named. The last part holds the witnesses: for each obligation with hypotheses, a
concrete state and operands that meet them. -/

namespace Sys2Proof.Tests

open Sys2Proof Sys2Proof.Machine

/-! ## Small states -/

/-- The state after reset with one word at 0x200. -/
def start (w : Nat) : State := State.reset.withFetchWord 16 w

/-- Registers set one after another. -/
def withV (s : State) (rs : List (Nibble × Byte)) : State := rs.foldl (fun s r => s.setV r.1 r.2) s

/-- Bytes placed in memory. -/
def withMem (s : State) (a : Nat) (bs : List Byte) : State := { s with mem := s.mem.writeBytes a bs }

/-- I set. -/
def withI (s : State) (i : Word) : State := { s with i := i }

/-- SP set. -/
def withSp (s : State) (sp : Byte) : State := { s with sp := sp }

/-- STRICT = 1. -/
def strict (s : State) : State := { s with cfg := { s.cfg with strict := true } }

/-- SHIFT_USES_VY = 1. -/
def shiftVy (s : State) : State := { s with cfg := { s.cfg with shiftUsesVy := true } }

/-- LOADSTORE_INCREMENTS_I = 1. -/
def bump (s : State) : State := { s with cfg := { s.cfg with loadStoreIncrementsI := true } }

/-- RUN = Halted. -/
def halted (s : State) : State := s.setRun .halted

/-- What one step leaves, seen through `f`. -/
def after {α : Type} (s : State) (f : State → α) : Option α :=
  match step s with
  | .next t => some (f t)
  | .fault _ => none
  | .refused _ => none

/-- V[x] and VF. -/
def vAndF (x : Nibble) (s : State) : Byte × Byte := (s.getV x, s.getV 0xF)

/-- PC and STATUS. -/
def pcStatus (s : State) : Word × BitVec 48 := (s.pc, s.status.word)

/-- The lit elements among those given. -/
def lit (ps : List Nat) (s : State) : List Bool := ps.map (pixelOf s.display)

/-! ## Well-formedness: the ill-formed terms are refused (R62) -/

theorem test_wellFormed_sys_0E0_refused : (Instr.sys 0x0E0).wellFormed = false := by decide
theorem test_wellFormed_sys_0EE_refused : (Instr.sys 0x0EE).wellFormed = false := by decide
theorem test_wellFormed_sys_1E0_accepted : (Instr.sys 0x1E0).wellFormed = true := by decide

/-! ## Decoding: a word of every row of R69, written out from its pattern -/

theorem test_decode_flow :
    decodeWord 0x00E0 = .ok .cls ∧ decodeWord 0x00EE = .ok .ret ∧ decodeWord 0x0123 = .ok (.sys 0x123) ∧
    decodeWord 0x1206 = .ok (.jp 0x206) ∧ decodeWord 0x2300 = .ok (.call 0x300) ∧
    decodeWord 0x3342 = .ok (.seImm 3 0x42) ∧ decodeWord 0x4342 = .ok (.sneImm 3 0x42) ∧
    decodeWord 0x5120 = .ok (.seReg 1 2) ∧ decodeWord 0x9120 = .ok (.sneReg 1 2) ∧
    decodeWord 0xBFFF = .ok (.jpV0 0xFFF) := by decide

theorem test_decode_alu :
    decodeWord 0x6AFF = .ok (.ldImm 0xA 0xFF) ∧ decodeWord 0x7220 = .ok (.addImm 2 0x20) ∧
    decodeWord 0x8010 = .ok (.ldReg 0 1) ∧ decodeWord 0x8F11 = .ok (.orReg 0xF 1) ∧
    decodeWord 0x8012 = .ok (.andReg 0 1) ∧ decodeWord 0x8013 = .ok (.xorReg 0 1) ∧
    decodeWord 0x80F4 = .ok (.addReg 0 0xF) ∧ decodeWord 0x8025 = .ok (.subReg 0 2) ∧
    decodeWord 0x8016 = .ok (.shr 0 1) ∧ decodeWord 0x8017 = .ok (.subn 0 1) ∧
    decodeWord 0x801E = .ok (.shl 0 1) ∧ decodeWord 0xC30F = .ok (.rnd 3 0x0F) := by decide

theorem test_decode_index_display_keys :
    decodeWord 0xA123 = .ok (.ldI 0x123) ∧ decodeWord 0xF21E = .ok (.addI 2) ∧ decodeWord 0xFA29 = .ok (.ldF 0xA) ∧
    decodeWord 0xF533 = .ok (.ldB 5) ∧ decodeWord 0xFF55 = .ok (.storeRegs 0xF) ∧
    decodeWord 0xF265 = .ok (.loadRegs 2) ∧ decodeWord 0xDF15 = .ok (.drw 0xF 1 5) ∧
    decodeWord 0xE29E = .ok (.skp 2) ∧ decodeWord 0xE2A1 = .ok (.sknp 2) ∧ decodeWord 0xF507 = .ok (.ldVxDt 5) ∧
    decodeWord 0xF30A = .ok (.ldVxK 3) ∧ decodeWord 0xF115 = .ok (.ldDtVx 1) ∧
    decodeWord 0xF118 = .ok (.ldStVx 1) := by decide

/-- One unknown word a group (R63; F8, F10, A30, K5). -/
theorem test_decode_unknown :
    decodeWord 0x5121 = .error .unknownGroup5 ∧ decodeWord 0x8008 = .error .unknownGroup8 ∧
    decodeWord 0x800F = .error .unknownGroup8 ∧ decodeWord 0x9128 = .error .unknownGroup9 ∧
    decodeWord 0xE2A2 = .error .unknownGroupE ∧ decodeWord 0xF2FF = .error .unknownGroupF := by decide

/-- Bytes: the high byte first, the rest handed back (R46, R58). -/
theorem test_decode_bytes : decode [0xA3, 0x00, 0x55] = .ok (.ldI 0x300, [0x55]) ∧
    decode [0xA3] = .error .truncated := by decide

theorem test_encode_bytes : encode (.drw 0xF 1 5) = [0xDF, 0x15] := by decide

theorem test_decodeTableWord : decodeTableWord 16 0x2300 = some (.call 0x300) ∧ decodeTableWord 16 0x5121 = none := by
  decide

/-! ## Control transfer and skips -/

/-- F1. -/
theorem test_ret : after { withSp (start 0x00EE) 1 with stack := State.reset.stack.set 0 0x202 }
    (fun t => (t.sp, t.pc, t.stack[0])) = some (0, 0x202, 0x202) := by decide
/-- F2. -/
theorem test_ret_underflow : after (start 0x00EE) pcStatus = some (0x202, 0x000000EE0200000E) := by decide
/-- F3. -/
theorem test_call_overflow : after (withSp (start 0x2300) 16) pcStatus = some (0x202, 0x000023000200000A) := by decide
/-- F21. -/
theorem test_call_sixteenth : after (withSp (start 0x2400) 15) (fun t => (t.stack[15], t.sp, t.pc)) =
    some (0x202, 16, 0x400) := by decide
/-- F14, F16. -/
theorem test_sys : after (start 0x0123) pcStatus = some (0x202, 0) ∧
    after { start 0x01E0 with display := Vector.replicate 32 1 } (lit [0, 1984]) = some [true, true] := by decide
/-- F12. -/
theorem test_jp : after (start 0x1200) pcStatus = some (0x200, 0) := by decide
/-- F4, F5. -/
theorem test_seImm : after (withV (start 0x3342) [(3, 0x42)]) (·.pc) = some 0x204 ∧
    after (withV (start 0x3342) [(3, 0x41)]) (·.pc) = some 0x202 := by decide
/-- F6. -/
theorem test_sneImm : after (withV (start 0x4342) [(3, 0x41)]) (·.pc) = some 0x204 ∧
    after (withV (start 0x4342) [(3, 0x42)]) (·.pc) = some 0x202 := by decide
/-- F7. -/
theorem test_seReg : after (withV (start 0x5120) [(1, 7), (2, 7)]) (·.pc) = some 0x204 := by decide
/-- F9. -/
theorem test_sneReg : after (withV (start 0x9120) [(1, 7), (2, 7)]) (·.pc) = some 0x202 ∧
    after (withV (start 0x9120) [(1, 7), (2, 8)]) (·.pc) = some 0x204 := by decide
/-- F20. -/
theorem test_skip_past_memory : after (withMem { withV State.reset [(5, 9)] with pc := 0xFFE } 0xFFE [0x35, 0x09]) (·.pc) =
    some 0x1002 := by decide
/-- F18. -/
theorem test_jpV0_not_masked : after (withV (start 0xBFFF) [(0, 0xFF)]) (·.pc) = some 0x10FE := by decide
/-- F19. -/
theorem test_jpV0_ignores_x : after (withV (start 0xB1FF) [(1, 5)]) (·.pc) = some 0x1FF := by decide

/-! ## Arithmetic, logic and random -/

/-- A1. -/
theorem test_ldImm : after (start 0x6AFF) (·.getV 0xA) = some 0xFF := by decide
/-- A2. -/
theorem test_addImm_no_flag : after (withV (start 0x7220) [(2, 0xF0), (0xF, 0x55)]) (vAndF 2) = some (0x10, 0x55) := by
  decide
/-- A4. -/
theorem test_addImm_vf : after (withV (start 0x7F01) [(0xF, 0xFF)]) (·.getV 0xF) = some 0 := by decide
/-- A5. -/
theorem test_ldReg : after (withV (start 0x8010) [(1, 0x33)]) (·.getV 0) = some 0x33 := by decide
/-- A6. -/
theorem test_or : after (withV (start 0x8011) [(0, 0x0F), (1, 0xF0), (0xF, 1)]) (vAndF 0) = some (0xFF, 1) := by decide
/-- A7. -/
theorem test_and : after (withV (start 0x8012) [(0, 0x3C), (1, 0x0F)]) (·.getV 0) = some 0x0C := by decide
/-- A8. -/
theorem test_xor : after (withV (start 0x8013) [(0, 0xFF), (1, 0x0F)]) (·.getV 0) = some 0xF0 := by decide
/-- A11. -/
theorem test_addReg_carry : after (withV (start 0x8014) [(0, 0xFF), (1, 1)]) (vAndF 0) = some (0, 1) := by decide
/-- A13, A14. -/
theorem test_addReg_vf : after (withV (start 0x8F04) [(0xF, 0x80), (0, 0x80)]) (·.getV 0xF) = some 1 ∧
    after (withV (start 0x80F4) [(0, 0x10), (0xF, 1)]) (vAndF 0) = some (0x11, 0) := by decide
/-- A15, A16. -/
theorem test_subReg : after (withV (start 0x8015) [(0, 3), (1, 5)]) (vAndF 0) = some (0xFE, 0) ∧
    after (withV (start 0x8015) [(0, 5), (1, 5)]) (vAndF 0) = some (0, 1) := by decide
/-- A17. -/
theorem test_subReg_vf : after (withV (start 0x8F15) [(0xF, 5), (1, 3)]) (·.getV 0xF) = some 1 := by decide
/-- A19. -/
theorem test_shr : after (withV (start 0x8016) [(0, 4), (1, 0xFF)]) (fun t => (vAndF 0 t, t.getV 1)) =
    some ((2, 0), 0xFF) := by decide
/-- A20. -/
theorem test_shr_vy : after (shiftVy (withV (start 0x8016) [(1, 5)])) (fun t => (vAndF 0 t, t.getV 1)) =
    some ((2, 1), 5) := by decide
/-- A22, A23. -/
theorem test_subn : after (withV (start 0x8017) [(0, 3), (1, 5)]) (vAndF 0) = some (2, 1) ∧
    after (withV (start 0x8017) [(0, 5), (1, 3)]) (vAndF 0) = some (0xFE, 0) := by decide
/-- A24. -/
theorem test_shl : after (withV (start 0x800E) [(0, 0x81)]) (vAndF 0) = some (2, 1) := by decide
/-- A26. -/
theorem test_shl_vy : after (shiftVy (withV (start 0x801E) [(1, 0x81)])) (fun t => (vAndF 0 t, t.getV 1)) =
    some ((2, 1), 0x81) := by decide
/-- A27: the byte offered is the byte drawn, and it is consumed. -/
theorem test_rnd : after { start 0xC30F with offered := [0xA7, 0x55] } (fun t => (t.getV 3, t.offered)) =
    some (7, [0x55]) := by decide
/-- A27, as the transaction STEP(0xA7). -/
theorem test_rnd_step : (match stepWith 0xA7 (start 0xC30F) with | .next t => t.getV 3 | _ => 0) = 7 := by decide

/-! ## Index register and memory -/

/-- M1. -/
theorem test_ldI : after (start 0xA123) (·.i) = some 0x123 := by decide
/-- M3. -/
theorem test_addI_no_flag : after (withI (withV (start 0xF01E) [(0, 1)]) 0xFFF) (fun t => (t.i, t.getV 0xF)) =
    some (0x1000, 0) := by decide
/-- M4. -/
theorem test_addI_wraps : after (withI (withV (start 0xF01E) [(0, 1)]) 0xFFFF) (·.i) = some 0 := by decide
/-- M5 (the pixels are the default font's). -/
theorem test_ldF : after (withV (start 0xF029) [(0, 0x0A)]) (fun t => (t.i, t.mem.readBytes 0x32 5)) =
    some (0x32, [0xF0, 0x90, 0xF0, 0x90, 0x90]) := by decide
/-- M6. -/
theorem test_ldF_low_nibble : after (withV (start 0xF029) [(0, 0x3A)]) (·.i) = some 0x32 := by decide
/-- M9. -/
theorem test_ldB_top : after (withI (withV (start 0xF033) [(0, 123)]) 0xFFD) (·.mem.readBytes 0xFFD 3) =
    some [1, 2, 3] := by decide
/-- M10. -/
theorem test_ldB_fault : after (strict (withI (start 0xF033) 0xFFE)) pcStatus = some (0x202, 0x0000F03302000012) ∧
    after (withI (start 0xF033) 0xFFE) pcStatus = some (0x202, 0) := by decide
/-- M12 and M13. -/
theorem test_storeRegs :
    after (withI (withV (start 0xF255) [(0, 1), (1, 2), (2, 3), (3, 4)]) 0x300) (fun t => (t.mem.readBytes 0x300 4, t.i)) =
      some ([1, 2, 3, 0], 0x300) ∧
    after (bump (withI (withV (start 0xF255) [(0, 1)]) 0x300)) (·.i) = some 0x303 := by decide
/-- M15 with the increment option. -/
theorem test_storeRegs_fault : after (bump (withI (withV (start 0xFF55) [(0, 1)]) 0xFF1))
    (fun t => (t.mem.read 0xFF1, t.i)) = some (0, 0xFF1) := by decide
/-- M17. -/
theorem test_loadRegs : after (withMem (withI (start 0xF265) 0x300) 0x300 [9, 8, 7, 6])
    (fun t => (t.getV 0, t.getV 1, t.getV 2, t.getV 3, t.i)) = some (9, 8, 7, 0, 0x300) := by decide
/-- M20. -/
theorem test_loadRegs_fault : after (bump (withI (start 0xF065) 0xFFFF)) (fun t => (t.i, t.pc)) =
    some (0xFFFF, 0x202) := by decide

/-! ## Display -/

/-- D1. -/
theorem test_cls : after { withV (start 0x00E0) [(0xF, 9)] with display := Vector.replicate 32 1 }
    (fun t => (lit [0, 1984] t, t.getV 0xF)) = some ([false, false], 9) := by decide
/-- D2: on a clear display nothing collides. It is also the draw after D3's, of which R117 says VF = 1 (log 14). -/
theorem test_drw_clear_display : after (start 0xD015) (fun t => (lit [0, 3, 4, 64, 65, 67, 256, 259] t, t.getV 0xF)) =
    some ([true, true, false, true, false, true, true, true], 0) := by decide
/-- D5. -/
theorem test_drw_wraps : after (withV (start 0xD015) [(0, 62), (1, 30)])
    (lit [1981, 1982, 1983, 1920, 1921, 1922, 62, 0]) =
      some [false, true, true, true, true, false, true, false] := by decide
/-- D7. -/
theorem test_drw_collision : after { start 0xD001 with display := Display.clear.set 0 1 }
    (fun t => (lit [0, 1, 2, 3, 4] t, t.getV 0xF)) = some ([false, true, true, true, false], 1) := by decide
/-- D6. -/
theorem test_drw_vf_is_cleared_first : after (withV (start 0xDF11) [(0xF, 10)])
    (fun t => (lit [0, 3, 4, 10] t, t.getV 0xF)) = some ([true, true, false, false], 0) := by decide
/-- D9. -/
theorem test_drw_no_rows : after (strict (withI (withV (start 0xD000) [(0xF, 1)]) 0xFFFF))
    (fun t => (t.getV 0xF, t.pc, t.status.word)) = some (0, 0x202, 0) := by decide
/-- D10. -/
theorem test_drw_fault : after (withI (withV (start 0xD005) [(0xF, 1)]) 0xFFC) (fun t => (t.getV 0xF, t.pc)) =
    some (1, 0x202) := by decide

/-! ## Keys and timers -/

/-- The reset state with one word and the keys given down. -/
def keysDown (w : Nat) (ks : List Nibble) : State := ks.foldl (fun s k => s.keyEvent k true) (start w)

/-- K2, K3. -/
theorem test_skp : after (withV (keysDown 0xE29E [0xA]) [(2, 0x1A)]) (·.pc) = some 0x204 ∧
    after (withV (start 0xE29E) [(2, 0x0A)]) (·.pc) = some 0x202 := by decide
/-- K4. -/
theorem test_sknp : after (withV (start 0xE2A1) [(2, 0x0A)]) (·.pc) = some 0x204 ∧
    after (withV (keysDown 0xE2A1 [0xA]) [(2, 0x0A)]) (·.pc) = some 0x202 := by decide
/-- K6. -/
theorem test_ldVxDt : after { start 0xF507 with dt := 0x3C } (·.getV 5) = some 0x3C := by decide
/-- K7. -/
theorem test_ldVxK_waits : after (start 0xF30A) pcStatus = some (0x200, 1) := by decide
/-- K8. -/
theorem test_ldVxK_lowest : after ((keysDown 0xF30A [7, 2]).setRun .awaitingKey)
    (fun t => (t.getV 3, t.pc, t.status.word)) = some (2, 0x202, 0) := by decide
/-- K10. -/
theorem test_ldDtVx : after (withV (start 0xF115) [(1, 120)]) (fun t => (t.dt, t.st)) = some (120, 0) := by decide
/-- K11. -/
theorem test_ldStVx : after (withV (start 0xF118) [(1, 2)]) (fun t => (t.st, t.soundOn)) = some (2, true) := by decide
/-- K11, K12: the last tick of a timer, and a tick at 0. -/
theorem test_tick : ({ State.reset with st := 1 } : State).tick.soundOn = false ∧ State.reset.tick.dt = 0 := by decide
/-- K13. -/
theorem test_tick_halted : (halted { State.reset with dt := 5 }).tick.dt = 4 := by decide
/-- K15. -/
theorem test_key_events : ((State.reset.keyEvent 0xF true).keyEvent 0xF false).key 0xF = false ∧
    (State.reset.keyEvent 0xF true).key 0xF = true := by decide

/-! ## Cycle, reset and load -/

/-- F8, F10. -/
theorem test_unknown_opcode : after (start 0x5121) pcStatus = some (0x202, 0) ∧
    after (strict (start 0x9128)) pcStatus = some (0x202, 0x0000912802000006) := by decide
/-- C1. -/
theorem test_last_legal_fetch : after (withMem { State.reset with pc := 0xFFE } 0xFFE [0x12, 0x00]) (·.pc) =
    some 0x200 := by decide
/-- C2. -/
theorem test_fetch_fault : after { State.reset with pc := 0xFFF } pcStatus = some (0xFFF, 0x000000000FFF0032) := by decide
/-- C8. -/
theorem test_strict_memory_fault :
    after (strict (withMem { State.reset with pc := 0x202, i := 0xFFF } 0x202 [0xF1, 0x55])) pcStatus =
      some (0x204, 0x0000F15502020012) := by decide
/-- S1. -/
theorem test_reset : State.reset.pc = 0x200 ∧ State.reset.mem.readBytes 0x4B 6 = [0xF0, 0x80, 0xF0, 0x80, 0x80, 0] ∧
    State.reset.status.word = 0 := by decide
/-- The reset memory is canonical, and a byte written back to its reset value leaves no cell. -/
theorem test_memory_canonical : State.reset.mem.wf = true ∧
    ((Memory.write [] 0x300 7).write 0 0xAA).write 0x300 0 = [(0, 0xAA)] := by decide
/-- C5: the tail of memory is zeroed by a load. -/
theorem test_load : ((withMem State.reset 0x200 [1, 2, 3]).load [0x12, 0]).mem.readBytes 0x1FF 5 =
    [0, 0x12, 0, 0, 0] := by decide
/-- C4. -/
theorem test_load_too_large : (loadFits (List.replicate 3585 0)) = false ∧
    ((State.reset.halt .romTooLarge false 0 0).status.word = 0x000000000016) := by
  refine ⟨?_, by decide⟩
  simp only [loadFits, List.length_replicate]
  decide
/-- C7. -/
theorem test_reset_after_halt : State.resetWith Config.fontRom Cfg.default = State.reset ∧
    transact Config.fontRom (.reset Cfg.default) (halted State.reset) = .next (State.resetWith Config.fontRom Cfg.default) :=
  ⟨by decide, rfl⟩
/-- R154: 500 Hz over 60 Hz is 8 steps a tick. -/
theorem test_ticksPerTimer : ticksPerTimer Config.instrRateHz = 8 ∧ ticksPerTimer 1 = 1 := by decide
/-- R154: a tick after every second step at 120 Hz, after every step at 1 Hz. -/
theorem test_cooperativeSchedule :
    cooperativeSchedule 120 [1, 2, 3, 4, 5] = [.step 1, .step 2, .tick, .step 3, .step 4, .tick, .step 5] ∧
    cooperativeSchedule 1 [7, 8] = [.step 7, .tick, .step 8, .tick] := by decide

/-! ## Witnesses: states and operands that meet the hypotheses of each obligation, clause by clause -/

/-- A running state whose next step is a RET at the last address a word can be fetched from, with 16 return addresses. -/
def edge : State := withMem { withSp State.reset 16 with pc := 0xFFE } 0xFFE [0x00, 0xEE]

/-- The step of a state that has one, and what it leaves. -/
def goes (s : State) (f : State → Bool) : Bool :=
  match step s with
  | .next t => f t
  | .fault _ => false
  | .refused _ => false

theorem exists_of_goes {s : State} {f : State → Bool} (h : goes s f = true) : ∃ t, step s = .next t ∧ f t = true := by
  unfold goes at h
  split at h
  · rename_i t e; exact ⟨t, e, h⟩
  · cases h
  · cases h

theorem edge_inv : State.Inv edge := ⟨by decide, by decide, by decide, by decide⟩

theorem witness_DecodeInvertsEncode : (Instr.sys 0x0EF).wellFormed = true ∧ (Instr.drw 0xF 0 0xF).wellFormed = true := by
  decide

theorem witness_EncodeInvertsDecode : decode [0x00, 0xEF, 0x12] = .ok (.sys 0x0EF, [0x12]) := by decide

theorem witness_StepRunsDecodedInstruction : edge.status.run ≠ .halted ∧ edge.pc.toNat ≤ 0xFFE ∧
    decodeWord (edge.mem.read edge.pc.toNat ++ edge.mem.read (edge.pc.toNat + 1)) = .ok .ret := by decide

theorem witness_StoredWordIsTheOneFetched : edge.status.run ≠ .halted ∧ edge.pc.toNat ≤ 0xFFE ∧
    decodeTableWord 16 0x1206 = some (.jp 0x206) := by decide

theorem witness_UnknownOpcodeIsSkippedOrHalts : (start 0x5121).status.run ≠ .halted ∧ (start 0x5121).pc.toNat ≤ 0xFFE ∧
    (0x5121#16 = (start 0x5121).mem.read (start 0x5121).pc.toNat ++
      (start 0x5121).mem.read ((start 0x5121).pc.toNat + 1)) ∧
    decodeWord 0x5121 = .error .unknownGroup5 ∧ (start 0x5121).cfg.strict = false ∧
    (strict (start 0x5121)).cfg.strict = true := by decide

theorem witness_FetchFaultHaltsInBothModes :
    (∀ s ∈ [{ State.reset with pc := 0xFFF }, strict { State.reset with pc := 0x10FE }],
      s.status.run ≠ .halted ∧ s.pc.toNat ≥ 0xFFF) := by decide

theorem witness_HaltedStepChangesNothing : (halted State.reset).status.run = .halted := by decide

theorem witness_FaultHandlingByMode : FaultKind.stackOverflow ≠ .romTooLarge ∧ FaultKind.memoryFault ≠ .romTooLarge ∧
    (FaultKind.stackOverflow = .stackOverflow ∨ FaultKind.stackOverflow = .stackUnderflow ∨
      State.reset.cfg.strict = true) ∧
    (FaultKind.memoryFault = .stackOverflow ∨ FaultKind.memoryFault = .stackUnderflow ∨
      (strict State.reset).cfg.strict = true) ∧
    ¬(FaultKind.memoryFault = .stackOverflow ∨ FaultKind.memoryFault = .stackUnderflow ∨
      State.reset.cfg.strict = true) := by decide

theorem witness_StepAnswersNext : edge.sp.toNat ≤ 16 := by decide

theorem witness_StepKeepsInvariant : State.Inv edge ∧ ∃ t, step edge = .next t ∧ decide (t.sp.toNat = 15) = true :=
  ⟨edge_inv, exists_of_goes (by decide)⟩

theorem witness_TransactionsKeepInvariant : State.Inv edge := edge_inv

/-- The step of a running state that stays running and leaves PC at `pc`. -/
def runsTo (s : State) (pc : Word) : Bool :=
  decide (s.status.run ≠ .halted) && goes s fun t => decide (t.status.run ≠ .halted) && decide (t.pc = pc)

/-- The six ways of R19, one after another, and the others that end at P + 2: an unknown word, a skip not taken, FX0A with a
key down. -/
theorem witness_PcAfterStepIsOneOfR19 :
    runsTo (start 0x6AFF) 0x202 ∧ runsTo (withV (start 0x3342) [(3, 0x42)]) 0x204 ∧ runsTo (start 0x2FFF) 0xFFF ∧
    runsTo (withV (start 0xBFFF) [(0, 0xFF)]) 0x10FE ∧
    runsTo { edge with stack := edge.stack.set 15 0x1000 } 0x1000 ∧ runsTo (start 0xF30A) 0x200 ∧
    runsTo (start 0x5121) 0x202 ∧ runsTo (start 0x3342) 0x202 ∧ runsTo (keysDown 0xF30A [5]) 0x202 := by decide

/-- A fetch fault and the four kinds a step can record. -/
theorem witness_HaltingStepIsPrecise :
    (∀ s ∈ [{ State.reset with pc := 0xFFF }, strict (start 0x5121), withSp (start 0x2300) 16, start 0x00EE,
      strict (withI (start 0xF033) 0xFFE)],
      s.status.run ≠ .halted ∧ goes s (fun t => decide (t.status.run = .halted)) = true) := by decide

theorem witness_OutOfRangeAccessDoesNothing :
    ((Instr.drw 0 0 5).accessCount = some 5 ∧ (0xFFC#16).toNat + 5 > 4096) ∧
    ((Instr.ldB 0).accessCount = some 3 ∧ (0xFFE#16).toNat + 3 > 4096) ∧
    ((Instr.storeRegs 0xF).accessCount = some 16 ∧ (0xFF1#16).toNat + 16 > 4096) ∧
    ((Instr.loadRegs 0).accessCount = some 1 ∧ (0xFFFF#16).toNat + 1 > 4096) ∧
    (withI State.reset 0xFFE).cfg.strict = false ∧ (strict (withI State.reset 0xFFE)).cfg.strict = true := by decide

theorem witness_StatusIsOnlyAReport : State.reset.status.run ≠ .halted ∧
    (⟨.awaitingKey, some .memoryFault, false, 0x200, 0xF033⟩ : Status).run ≠ .halted ∧
    goes State.reset (fun t => decide (t.pc = 0x202)) = true := by decide

theorem witness_OnlyListedRegistersAreWritten : (Instr.addReg 1 2).writesV 3 = false ∧
    ∃ t, exec (.addReg 1 2) State.reset = .next t := ⟨by decide, _, rfl⟩

theorem witness_UnlistedRegistersAreNotRead : (Instr.addReg 1 2).readsV State.reset.cfg 0xF = false ∧
    ∃ t, exec (.addReg 1 2) State.reset = .next t := ⟨by decide, _, rfl⟩

/-- For each part, a step that does write it. -/
theorem witness_EveryPartHasItsWriters :
    goes (start 0xA123) (fun t => decide (t.i ≠ 0)) ∧
    goes (bump (start 0xF065)) (fun t => decide (t.i ≠ 0)) ∧
    goes edge (fun t => decide (t.sp ≠ 16)) ∧
    goes (start 0x2300) (fun t => decide (t.stack ≠ State.reset.stack)) ∧
    goes (withV (start 0xF015) [(0, 1)]) (fun t => decide (t.dt ≠ 0)) ∧
    goes (withV (start 0xF018) [(0, 1)]) (fun t => decide (t.st ≠ 0)) ∧
    goes (start 0xD001) (fun t => decide (t.display ≠ Display.clear)) ∧
    goes (withI (withV (start 0xF033) [(0, 1)]) 0xFFD) (fun t => decide (t.mem.read 0xFFF ≠ 0)) ∧
    goes (withI (withV (start 0xF155) [(1, 1)]) 0xFFE) (fun t => decide (t.mem.read 0xFFF ≠ 0)) := by decide

theorem witness_RandomByteReachesOnlyRnd : ∀ x nn, ¬ (start 0x0123).nextInstr (.rnd x nn) := by
  rintro x nn ⟨_, w, h, d⟩
  have hf : fetchWord (start 0x0123) = some 0x0123 := by decide
  rw [hf, Option.some.injEq] at h
  have hd : decodeWord (0x0123 : Word) = .ok (.sys 0x123) := by decide
  rw [← h, hd] at d
  cases d

/-- The lowest and the highest SP that RET pops from, and the SP it faults on. -/
theorem witness_RetPopsOrUnderflows : ((withSp State.reset 1).sp.toNat - 1 < 16 ∧ 0 < (withSp State.reset 1).sp.toNat) ∧
    (edge.sp.toNat - 1 < 16 ∧ 0 < edge.sp.toNat) ∧ State.reset.sp.toNat = 0 := by decide

/-- The lowest and the highest SP that CALL pushes at, and the SP it faults on. -/
theorem witness_CallPushesOrOverflows : State.reset.sp.toNat < 16 ∧ (withSp State.reset 15).sp.toNat < 16 ∧
    edge.sp.toNat = 16 := by decide

/-- A CALL to the last address a word can be fetched from, at the last free slot. -/
theorem witness_CallThenRetReturns :
    (withSp (withMem (start 0x2FFE) 0xFFE [0x00, 0xEE]) 15).nextInstr (.call 0xFFE) ∧ (0xFFE#12).toNat ≤ 0xFFE ∧
    (withMem (start 0x2FFE) 0xFFE [0x00, 0xEE]).mem.read 0xFFE = 0x00 ∧
    (withMem (start 0x2FFE) 0xFFE [0x00, 0xEE]).mem.read 0xFFF = 0xEE ∧ (15#8).toNat < 16 :=
  ⟨⟨by decide, 0x2FFE, by decide, by decide⟩, by decide, by decide, by decide, by decide⟩

theorem witness_CompareSkips : (withV State.reset [(3, 0x42)]).getV 3 = 0x42 ∧ State.reset.getV 3 ≠ 0x42 ∧
    State.reset.getV 1 = State.reset.getV 2 ∧
    (withV State.reset [(1, 7)]).getV 1 ≠ (withV State.reset [(1, 7)]).getV 2 ∧ (0xF#4) ≠ 0#4 ∧ (1#4) ≠ 0#4 := by decide

/-- The clause x ≠ 0xF. -/
theorem witness_AddSetsCarryLast : (0xE#4) ≠ 0xF#4 := by decide

theorem witness_SubtractSetsNotBorrowLast : (0xE#4) ≠ 0xF#4 := by decide

/-- The operand with and without the option, and the clause x ≠ 0xF. -/
theorem witness_ShiftsSetDroppedBitLast : (0xE#4) ≠ 0xF#4 ∧
    (5#8 = if (withV State.reset [(0, 5)]).cfg.shiftUsesVy = true then (withV State.reset [(0, 5)]).getV 1
      else (withV State.reset [(0, 5)]).getV 0) ∧
    (5#8 = if (shiftVy (withV State.reset [(1, 5)])).cfg.shiftUsesVy = true
      then (shiftVy (withV State.reset [(1, 5)])).getV 1 else (shiftVy (withV State.reset [(1, 5)])).getV 0) := by decide

theorem witness_RndMasksTheDraw : (start 0xC30F).nextInstr (.rnd 3 0x0F) :=
  ⟨by decide, 0xC30F, by decide, by decide⟩

theorem witness_DecimalSplitIsStored : (withI State.reset 0xFFD).i.toNat ≤ 0xFFD ∧
    (withI State.reset 0xFFE).i.toNat > 0xFFD := by decide

/-- The last I for all sixteen registers, and for one. -/
theorem witness_StoreRegistersInclusive : (withI State.reset 0xFF0).i.toNat + (0xF#4).toNat ≤ 0xFFF ∧
    (withI State.reset 0xFFF).i.toNat + (0x0#4).toNat ≤ 0xFFF ∧ (0xF#4).toNat ≤ (0xF#4).toNat ∧
    (bump State.reset).cfg.loadStoreIncrementsI = true := by decide

theorem witness_LoadRegistersInclusive : (withI State.reset 0xFF0).i.toNat + (0xF#4).toNat ≤ 0xFFF ∧
    (withI State.reset 0xFFF).i.toNat + (0x0#4).toNat ≤ 0xFFF ∧ (0x0#4).toNat ≤ (0x0#4).toNat := by decide

theorem witness_StoredOpcodeIsFetchedNext : (withI State.reset 0xFFE).i.toNat + (1#4).toNat ≤ 0xFFF ∧
    (0#4).toNat < (1#4).toNat := by decide

/-- The pixels of a one-row sprite at column 0, row 0, as the obligation about DRW describes them. -/
def covered (s : State) (p : Nat) : Prop := ∃ r c, r < 1 ∧ c < 8 ∧
  (s.mem.read (s.base + r)).getLsbD (7 - c) = true ∧ p = (0 + r) % 32 * 64 + (0 + c) % 64

/-- A display with one pixel on under the sprite (the font's first byte), and the last I in range on a clear one: both
clauses of the flag. -/
theorem witness_DrawFlipsTheSpritePixels :
    (State.reset.i.toNat + (1#4).toNat ≤ 4096 ∧ (withI State.reset 0xFFF).i.toNat + (1#4).toNat ≤ 4096) ∧
    (0 = if (0#4) = 0xF#4 then 0 else (State.reset.getV 0).toNat % 64) ∧
    (0 = if (0xF#4) = 0xF#4 then 0 else (State.reset.getV 0xF).toNat % 32) ∧
    (∃ p, covered { State.reset with display := Display.clear.set 0 1 } p ∧ pixelOf (Display.clear.set 0 1) p = true) ∧
    ¬(∃ p, covered (withI State.reset 0xFFF) p ∧ pixelOf (withI State.reset 0xFFF).display p = true) := by
  refine ⟨by decide, by decide, by decide, ⟨0, ⟨0, 0, by decide, by decide, by decide, by decide⟩, by decide⟩, ?_⟩
  rintro ⟨p, ⟨r, c, hr, hc, hb, _⟩, _⟩
  have hz : (withI State.reset 0xFFF).mem.read 0xFFF = 0 := by decide
  have hr0 : r = 0 := by omega
  subst hr0
  rw [show (withI State.reset 0xFFF).base + 0 = 0xFFF by decide, hz] at hb
  simp at hb

/-- A sprite whose both draws answer a next state and that has a byte other than 0. -/
theorem witness_SecondDrawAlwaysCollides : State.reset.i.toNat + (1#4).toNat ≤ 4096 ∧
    (∃ t u, exec (.drw 0 1 1) State.reset = .next t ∧ exec (.drw 0 1 1) t = .next u) ∧
    ∃ r < (1#4).toNat, State.reset.mem.read (State.reset.base + r) ≠ 0 :=
  ⟨by decide, ⟨_, _, rfl, rfl⟩, 0, by decide, by decide⟩

theorem witness_DrawTwiceRestoresDisplay : State.reset.i.toNat + (1#4).toNat ≤ 4096 ∧
    (∀ p < 2048, pixelOf State.reset.display p = false) := by
  refine ⟨by decide, fun p _ => ?_⟩
  simp only [pixelOf, State.reset, Display.clear]
  split <;> simp

theorem witness_KeySkips : (0xA#4).toNat = ((withV State.reset [(2, 0x1A)]).getV 2).toNat % 16 ∧
    (keysDown 0xE29E [0xA]).key 0xA = true ∧ State.reset.key 0xA = false := by decide

theorem witness_WaitForKey : (keysDown 0xF30A [0xF, 7]).key 7 = true ∧
    (∀ j : Nibble, j.toNat < (7#4).toNat → (keysDown 0xF30A [0xF, 7]).key j = false) ∧
    (∀ k : Nibble, State.reset.key k = false) := by decide

/-- The ends of the font area and of the rest. -/
theorem witness_ResetValues : (0 < 80 ∧ 0x4F < 80) ∧ (0x50 ≤ 0x50 ∧ 0x50 ≤ 0xFFF) ∧ (0x50 ≤ 0xFFF ∧ 0xFFF ≤ 0xFFF) := by
  decide

theorem witness_TicksCountDown : ∃ t, t = Nat.iterate State.tick 60 { State.reset with dt := 120 } := ⟨_, rfl⟩

theorem witness_OnlyKeyEventsWriteKeys : (∀ k down, Transaction.tick ≠ .key k down) ∧
    (∀ cfg, Transaction.tick ≠ .reset cfg) ∧ ∃ t, transact Config.fontRom .tick (keysDown 0 [3]) = .next t :=
  ⟨nofun, nofun, _, rfl⟩

theorem witness_OnlyResetWritesCfg : (∀ cfg, Transaction.reset cfg ∉ [.tick, .key 3 true, .read]) ∧
    ∃ t, transactAll Config.fontRom [.tick, .key 3 true, .read] (strict State.reset) = .next t :=
  ⟨by simp, _, rfl⟩

theorem witness_OnlyResetLeavesHalted : (halted State.reset).status.run = .halted ∧
    ∀ cfg, Transaction.reset cfg ∉ [.step 0, .tick, .load [0x12, 0]] := ⟨by decide, by simp⟩

/-- The longest program, and a byte of a short one. -/
theorem witness_LoadPlacesTheProgram : (List.replicate 3584 (0 : Byte)).length ≤ 3584 ∧
    1 < ([0x12, 0x00] : List Byte).length ∧ 0x200 + ([0x12, 0x00] : List Byte).length ≤ 0x202 :=
  ⟨by rw [List.length_replicate], by decide, by decide⟩

theorem witness_OversizedLoadIsRejected : (List.replicate 3585 (0 : Byte)).length > 3584 ∧
    State.reset.cfg.strict = false ∧ (strict State.reset).cfg.strict = true := ⟨by rw [List.length_replicate]; decide, by decide, by decide⟩

/-- The slowest rate with a period above 1, a rate below 60 and the default, and both kinds of position. -/
theorem witness_CooperativeScheduleTicks : 2 = max 1 (120 / 60) ∧ 1 = max 1 (1 / 60) ∧ 8 = max 1 (500 / 60) ∧
    (2 < (cooperativeSchedule 120 [1, 2, 3]).length ∧ (2 + 1) % (2 + 1) = 0) ∧
    (3 < (cooperativeSchedule 120 [1, 2, 3]).length ∧ (3 + 1) % (2 + 1) ≠ 0) := by decide

/-- A first draw without a collision of a sprite that has a 1 bit, and a sprite of zeros. -/
theorem witness_SecondDrawCollidesAfterCleanDraw :
    (State.reset.i.toNat + (1#4).toNat ≤ 4096 ∧ goes (start 0xD011) (fun t => decide (t.getV 0xF = 0)) ∧
      ∃ r < (1#4).toNat, (start 0xD011).mem.read ((start 0xD011).base + r) ≠ 0) ∧
    ((withI State.reset 0xFFF).i.toNat + (1#4).toNat ≤ 4096 ∧
      ∀ r < (1#4).toNat, (withI State.reset 0xFFF).mem.read ((withI State.reset 0xFFF).base + r) = 0) :=
  ⟨⟨by decide, by decide, 0, by decide, by decide⟩, by decide, by decide⟩

end Sys2Proof.Tests
end

/-! PROOFS. What an instruction does, said once: the way it ends and the state it completes with. Every statement about
all instructions goes through `exec_eq`. -/

namespace Sys2Proof

open Sys2Proof.Machine

/-- The ways an instruction can end: it completes (R75), waits for a key (R121), raises a fault (R76), or stops the model
at an SP no run reaches (log 7). -/
inductive Ending where
  | completes
  | waits
  | raises (kind : FaultKind)
  | stops

/-- The way an instruction ends in a state, the state being the one after the fetch. -/
def Instr.ending (i : Instr) (s : State) : Ending :=
  match i with
  | .ret => if s.sp = 0#8 then .raises .stackUnderflow else if s.sp.toNat ≤ 16 then .completes else .stops
  | .call _ => if s.sp = 16#8 then .raises .stackOverflow else if s.sp.toNat ≤ 16 then .completes else .stops
  | .ldVxK _ => if s.lowestPressed = none then .waits else .completes
  | i => if (i.accessCount.map s.iInRange).getD true then .completes else .raises .memoryFault

/-- I as `State.bumpI` leaves it (D25). -/
def Machine.State.bumpedI (s : State) (x : Nibble) : Word :=
  if s.cfg.loadStoreIncrementsI then s.i + x.setWidth 16 + 1#16 else s.i

/-- The state an instruction completes with, but for RUN. -/
def Instr.effect (i : Instr) (s : State) : State :=
  match i with
  | .cls => { s with display := Display.clear }
  | .ret =>
    { s with
      sp := s.sp - 1#8
      pc := if h : s.sp.toNat - 1 < 16 then s.stack[s.sp.toNat - 1] else s.pc }
  | .sys _ => s
  | .jp nnn => { s with pc := zext16 nnn }
  | .call nnn =>
    { s with
      stack := if h : s.sp.toNat < 16 then s.stack.set s.sp.toNat s.pc else s.stack
      sp := s.sp + 1#8
      pc := zext16 nnn }
  | .seImm .. | .sneImm .. | .seReg .. | .sneReg .. | .skp _ | .sknp _ =>
    { s with pc := if i.skipTaken s then s.pc + 2#16 else s.pc }
  | .ldImm x nn => s.setV x nn
  | .addImm x nn => s.setV x (addResult (s.getV x) nn)
  | .ldReg x y => s.setV x (s.getV y)
  | .orReg x y => s.setV x (s.getV x ||| s.getV y)
  | .andReg x y => s.setV x (s.getV x &&& s.getV y)
  | .xorReg x y => s.setV x (s.getV x ^^^ s.getV y)
  | .addReg x y => s.setVThenFlag x (addResult (s.getV x) (s.getV y)) (carryFlag (s.getV x) (s.getV y))
  | .subReg x y => s.setVThenFlag x (subResult (s.getV x) (s.getV y)) (notBorrowFlag (s.getV x) (s.getV y))
  | .shr x y => s.setVThenFlag x (shrResult (shiftSource s x y)) (shrFlag (shiftSource s x y))
  | .subn x y => s.setVThenFlag x (subResult (s.getV y) (s.getV x)) (notBorrowFlag (s.getV y) (s.getV x))
  | .shl x y => s.setVThenFlag x (shlResult (shiftSource s x y)) (shlFlag (shiftSource s x y))
  | .ldI nnn => { s with i := zext16 nnn }
  | .jpV0 nnn => { s with pc := jumpV0Target s nnn }
  | .rnd x nn => s.afterDraw.setV x (s.draw8 &&& nn)
  | .drw x y n => (s.setV flagReg 0#8).drawSprite x y n
  | .ldVxDt x => s.setV x s.dt
  | .ldVxK x => s.setV x (BitVec.ofNat 8 (s.lowestPressed.getD 0))
  | .ldDtVx x => { s with dt := s.getV x }
  | .ldStVx x => { s with st := s.getV x }
  | .addI x => { s with i := s.i + (s.getV x).setWidth 16 }
  | .ldF x => { s with i := glyphAddress (s.getV x) }
  | .ldB x => { s with mem := s.mem.writeBytes s.base (decimalDigits (s.getV x)) }
  | .storeRegs x => { s with mem := s.mem.writeBytes s.base (s.firstRegs x), i := s.bumpedI x }
  | .loadRegs x => { s.loadFirstRegs x with i := s.bumpedI x }

/-- What an ending answers for an instruction in a state. -/
def Ending.answer (i : Instr) (s : State) : Ending → Outcome
  | .completes => complete (i.effect s)
  | .waits => block s
  | .raises kind => raise kind (encodeWord i) s
  | .stops => .fault .stackPointerOutOfRange

end Sys2Proof

namespace Sys2Proof.Machine

variable {i : Instr} {s t : State}

/-! ## Every instruction by its ending -/

theorem skipIf_eq_complete (c : Bool) (s : State) :
    skipIf c s = complete { s with pc := if c then s.pc + 2#16 else s.pc } := by
  cases c <;> rfl

theorem State.bumpI_eq (s : State) (x : Nibble) : s.bumpI x = { s with i := s.bumpedI x } := by
  unfold State.bumpI State.bumpedI
  split <;> rfl

@[simp] theorem State.bumpedI_mem (s : State) (x : Nibble) (m : Memory) :
    ({ s with mem := m } : State).bumpedI x = s.bumpedI x := rfl

@[simp] theorem State.bumpedI_loadFirstRegs (s : State) (x : Nibble) :
    (s.loadFirstRegs x).bumpedI x = s.bumpedI x := by
  cases h : s.cfg.loadStoreIncrementsI <;> simp [State.bumpedI, h]

/-- An instruction answers what its ending answers. -/
theorem exec_eq (i : Instr) (s : State) : exec i s = Ending.answer i s (i.ending s) := by
  cases i with
  | ret =>
    by_cases h0 : s.sp = 0#8
    · simp [exec, execRet, Instr.ending, h0, Ending.answer]
    · have hsp : s.sp.toNat - 1 < 16 ↔ s.sp.toNat ≤ 16 := by bv_omega
      by_cases h : s.sp.toNat ≤ 16 <;>
        simp [exec, execRet, Instr.ending, Instr.effect, h0, h, hsp, Ending.answer, State.popPc]
  | call nnn =>
    by_cases h0 : s.sp = 16#8
    · simp [exec, execCall, Instr.ending, h0, Ending.answer]
    · have hsp : s.sp.toNat < 16 ↔ s.sp.toNat ≤ 16 := by bv_omega
      by_cases h : s.sp.toNat ≤ 16 <;>
        simp [exec, execCall, Instr.ending, Instr.effect, h0, h, hsp, Ending.answer, State.push]
  | ldVxK x =>
    cases h : s.lowestPressed <;> simp [exec, execLdVxK, Instr.ending, Instr.effect, h, Ending.answer]
  | drw x y n =>
    by_cases h : s.iInRange n.toNat <;>
      simp [exec, execDrw, Instr.ending, Instr.accessCount, Instr.effect, h, Ending.answer]
  | ldB x =>
    by_cases h : s.iInRange 3 <;>
      simp [exec, execLdB, Instr.ending, Instr.accessCount, Instr.effect, h, Ending.answer]
  | storeRegs x =>
    by_cases h : s.iInRange (x.toNat + 1) <;>
      simp [exec, execStoreRegs, Instr.ending, Instr.accessCount, Instr.effect, h, Ending.answer, State.bumpI_eq]
  | loadRegs x =>
    by_cases h : s.iInRange (x.toNat + 1) <;>
      simp [exec, execLoadRegs, Instr.ending, Instr.accessCount, Instr.effect, h, Ending.answer, State.bumpI_eq]
  | seImm | sneImm | seReg | sneReg | skp | sknp => exact skipIf_eq_complete _ s
  | _ => rfl

/-- The three next states an instruction can leave. -/
theorem exec_cases (h : exec i s = .next t) :
    (i.ending s = .completes ∧ t = (i.effect s).setRun .running) ∨
    (i.ending s = .waits ∧ t = { s with pc := s.pc - 2#16 }.setRun .awaitingKey) ∨
    (∃ kind, i.ending s = .raises kind ∧ t = s.afterFault kind (encodeWord i)) := by
  rw [exec_eq] at h
  cases he : i.ending s with
  | completes => exact .inl ⟨rfl, by simpa [he, Ending.answer, complete_eq] using h.symm⟩
  | waits => exact .inr (.inl ⟨rfl, by simpa [he, Ending.answer, block_eq] using h.symm⟩)
  | raises kind => exact .inr (.inr ⟨kind, rfl, by simpa [he, Ending.answer, raise_eq] using h.symm⟩)
  | stops => simp [he, Ending.answer] at h

theorem exec_of_completes (h : i.ending s = .completes) : exec i s = .next ((i.effect s).setRun .running) := by
  rw [exec_eq, h]
  rfl

theorem exec_of_waits (h : i.ending s = .waits) :
    exec i s = .next ({ s with pc := s.pc - 2#16 }.setRun .awaitingKey) := by
  rw [exec_eq, h]
  rfl

theorem exec_of_raises {kind : FaultKind} (h : i.ending s = .raises kind) :
    exec i s = .next (s.afterFault kind (encodeWord i)) := by
  rw [exec_eq, h]
  rfl

/-- Only RET and CALL can stop the model, and only at an SP no run reaches (log 7). -/
theorem sp_of_ending_stops (h : i.ending s = .stops) : 16 < s.sp.toNat := by
  unfold Instr.ending at h
  split at h
  case h_1 | h_2 => split_ifs at h; omega
  case h_3 | h_4 => split_ifs at h

/-- Only FX0A waits, and only with no key down (R121). -/
theorem keys_of_ending_waits (h : i.ending s = .waits) : (∃ x, i = .ldVxK x) ∧ ∀ k, s.key k = false := by
  unfold Instr.ending at h
  split at h
  case h_3 x => split_ifs at h with hk; exact ⟨⟨x, rfl⟩, State.lowestPressed_eq_none.mp hk⟩
  case h_1 | h_2 | h_4 => split_ifs at h

/-- A fault that can be ignored is a MemoryFault of one of the four memory instructions (R126). -/
theorem access_of_ending_raises {kind : FaultKind} {strict : Bool} (h : i.ending s = .raises kind)
    (hk : kind.halts strict = false) : i.accessCount.isSome = true := by
  unfold Instr.ending at h
  split at h
  case h_1 | h_2 => split_ifs at h; cases h; cases hk
  case h_3 => split_ifs at h
  case h_4 =>
    cases ha : i.accessCount with
    | none => simp [ha] at h
    | some n => rfl

/-- A memory instruction that completes has its range (R106). -/
theorem iInRange_of_ending_completes {n : Nat} (h : i.ending s = .completes) (hn : i.accessCount = some n) :
    s.iInRange n = true := by
  unfold Instr.ending at h
  split at h
  case h_1 | h_2 | h_3 => cases hn
  case h_4 => simpa [hn] using h

theorem sp_of_ret_completes (h : Instr.ret.ending s = .completes) : 0 < s.sp.toNat ∧ s.sp.toNat ≤ 16 := by
  simp only [Instr.ending] at h
  split_ifs at h
  bv_omega

theorem sp_of_call_completes {nnn : Addr} (h : (Instr.call nnn).ending s = .completes) : s.sp.toNat < 16 := by
  simp only [Instr.ending] at h
  split_ifs at h
  bv_omega

theorem key_of_ldVxK_completes {x : Nibble} (h : (Instr.ldVxK x).ending s = .completes) : ∃ k, s.key k = true := by
  simp only [Instr.ending] at h
  split_ifs at h with hk
  simpa [State.lowestPressed_eq_none] using hk

/-! ## Each way a step can go (R70 to R76) -/

theorem step_of_halted (h : s.status.run = .halted) : step s = .next s := by
  rw [step, if_pos h]

theorem step_of_fetch_fault (hr : s.status.run ≠ .halted) (hpc : 0xFFF ≤ s.pc.toNat) :
    step s = .next (haltAtFetch s) := by
  rw [step, if_neg hr, fetchWord_eq_none.mpr hpc]

theorem step_of_unknown {w : Word} {e : DecodeError} (hr : s.status.run ≠ .halted) (hf : fetchWord s = some w)
    (hd : decodeWord w = .error e) : step s = .next (s.advance.afterFault .decodeFault w) := by
  rw [step, if_neg hr, hf, ← raise_eq]
  simp only [decodeAndExec, hd]

/-! ## The parts of the state an instruction keeps -/

/-- Neither PC nor STATUS influences this part of the state. -/
def IgnoresPcAndStatus {α : Type} (f : State → α) : Prop :=
  ∀ (s : State) (pc : Word) (status : Status), f { s with pc := pc, status := status } = f s

/-- Such a part is after an instruction as its effect leaves it, or kept. -/
theorem exec_field {α : Type} {f : State → α} (hf : IgnoresPcAndStatus f)
    (h : exec i s = .next t) : f t = f (i.effect s) ∨ f t = f s := by
  obtain ⟨-, rfl⟩ | ⟨-, rfl⟩ | ⟨kind, -, rfl⟩ := exec_cases h
  · exact .inl (hf (i.effect s) (i.effect s).pc _)
  · exact .inr (hf s _ _)
  · unfold State.afterFault
    split <;> exact .inr (hf s s.pc _)

/-- What the effect keeps, the instruction keeps. -/
theorem exec_keeps {α : Type} {f : State → α} (hf : IgnoresPcAndStatus f)
    (h : exec i s = .next t) (he : f (i.effect s) = f s) : f t = f s :=
  (exec_field hf h).elim (·.trans he) id

/-- What the instruction changes, its effect changes. -/
theorem exec_changes {α : Type} {f : State → α} (hf : IgnoresPcAndStatus f)
    (h : exec i s = .next t) (ht : f t ≠ f s) : f (i.effect s) ≠ f s :=
  fun he => ht (exec_keeps hf h he)

@[simp] theorem effect_keys (i : Instr) (s : State) : (i.effect s).keys = s.keys := by
  cases i <;> simp [Instr.effect]

@[simp] theorem effect_cfg (i : Instr) (s : State) : (i.effect s).cfg = s.cfg := by
  cases i <;> simp [Instr.effect]

/-! ## The writers of each part (R17, R23 to R29) -/

@[simp] theorem getV_drawSprite (s : State) (x y n r : Nibble) : (s.drawSprite x y n).getV r =
    if r = flagReg then flagByte (drawPixels s.display false (drawList s x y n)).2 else s.getV r := by
  rw [State.drawSprite, State.getV_setV]
  rfl

theorem effect_getV {r : Nibble} (h : i.writesV r = false) : (i.effect s).getV r = s.getV r := by
  cases i with
  | ldImm | addImm | ldReg | orReg | andReg | xorReg | ldVxDt | ldVxK =>
    simp only [Instr.effect, State.getV_setV, if_neg (beq_eq_false_iff_ne.mp h)]
  | rnd x nn => exact (State.getV_setV _ x r _).trans (if_neg (beq_eq_false_iff_ne.mp h))
  | addReg | subReg | subn | shr | shl =>
    obtain ⟨hx, hf⟩ := Bool.or_eq_false_iff.mp h
    simp only [Instr.effect, State.getV_setVThenFlag, flagReg, if_neg (beq_eq_false_iff_ne.mp hx),
      if_neg (beq_eq_false_iff_ne.mp hf)]
  | drw =>
    simp only [Instr.effect, getV_drawSprite, State.getV_setV, flagReg, if_neg (beq_eq_false_iff_ne.mp h)]
  | loadRegs x => exact (State.getV_loadFirstRegs s x r).trans (if_neg (decide_eq_false_iff_not.mp h))
  | _ => rfl

theorem effect_i_changes (h : (i.effect s).i ≠ s.i) : (∃ nnn, i = .ldI nnn) ∨ (∃ x, i = .addI x ∨ i = .ldF x) ∨
    (s.cfg.loadStoreIncrementsI = true ∧ ∃ x, i = .storeRegs x ∨ i = .loadRegs x) := by
  cases i with
  | ldI nnn => exact .inl ⟨nnn, rfl⟩
  | addI x => exact .inr (.inl ⟨x, .inl rfl⟩)
  | ldF x => exact .inr (.inl ⟨x, .inr rfl⟩)
  | storeRegs x => exact .inr (.inr ⟨of_not_not fun hc => h (if_neg hc), x, .inl rfl⟩)
  | loadRegs x => exact .inr (.inr ⟨of_not_not fun hc => h (if_neg hc), x, .inr rfl⟩)
  | _ => exact absurd rfl h

theorem effect_sp_changes (h : (i.effect s).sp ≠ s.sp) : i = .ret ∨ ∃ nnn, i = .call nnn := by
  cases i <;> simp [Instr.effect] at h ⊢

theorem effect_stack_changes (h : (i.effect s).stack ≠ s.stack) : ∃ nnn, i = .call nnn := by
  cases i <;> simp [Instr.effect] at h ⊢

theorem effect_dt_changes (h : (i.effect s).dt ≠ s.dt) : ∃ x, i = .ldDtVx x := by
  cases i <;> simp [Instr.effect] at h ⊢

theorem effect_st_changes (h : (i.effect s).st ≠ s.st) : ∃ x, i = .ldStVx x := by
  cases i <;> simp [Instr.effect] at h ⊢

theorem effect_display_changes (h : (i.effect s).display ≠ s.display) : i = .cls ∨ ∃ x y n, i = .drw x y n := by
  cases i <;> simp [Instr.effect] at h ⊢

theorem length_decimalDigits (b : Byte) : (decimalDigits b).length = 3 := rfl

theorem length_firstRegs (s : State) (x : Nibble) : (s.firstRegs x).length = x.toNat + 1 := by
  simp only [State.firstRegs, List.length_take, Vector.length_toList]
  omega

theorem effect_read_changes {a : Nat} (h : (i.effect s).mem.read a ≠ s.mem.read a) :
    (∃ x, i = .ldB x ∧ s.base ≤ a ∧ a < s.base + 3) ∨ (∃ x, i = .storeRegs x ∧ s.base ≤ a ∧ a ≤ s.base + x.toNat) := by
  cases i with
  | ldB x =>
    refine .inl ⟨x, rfl, ?_⟩
    by_contra hc
    exact h (Memory.read_writeBytes_outside _ (by rw [length_decimalDigits]; omega))
  | storeRegs x =>
    refine .inr ⟨x, rfl, ?_⟩
    by_contra hc
    exact h (Memory.read_writeBytes_outside _ (by rw [length_firstRegs]; omega))
  | _ => simp [Instr.effect] at h

/-- Settles O20: the effect of an instruction writes the registers of R17's column, and its ending writes none. -/
theorem onlyListedRegistersAreWritten : Obligations.OnlyListedRegistersAreWritten := by
  intro i s t r h hr
  exact exec_keeps (f := (·.getV r)) (fun _ _ _ => rfl) h (effect_getV hr)

/-- Settles O22, part by part: what an instruction changes, its effect changes. -/
theorem everyPartHasItsWriters : Obligations.EveryPartHasItsWriters := by
  intro i s t h
  exact ⟨fun hc => effect_i_changes (exec_changes (f := State.i) (fun _ _ _ => rfl) h hc),
    fun hc => effect_sp_changes (exec_changes (f := State.sp) (fun _ _ _ => rfl) h hc),
    fun hc => effect_stack_changes (exec_changes (f := State.stack) (fun _ _ _ => rfl) h hc),
    fun hc => effect_dt_changes (exec_changes (f := State.dt) (fun _ _ _ => rfl) h hc),
    fun hc => effect_st_changes (exec_changes (f := State.st) (fun _ _ _ => rfl) h hc),
    exec_keeps (f := State.keys) (fun _ _ _ => rfl) h (effect_keys i s),
    exec_keeps (f := State.cfg) (fun _ _ _ => rfl) h (effect_cfg i s),
    fun hc => effect_display_changes (exec_changes (f := State.display) (fun _ _ _ => rfl) h hc),
    fun a hc => effect_read_changes (exec_changes (f := (·.mem.read a)) (fun _ _ _ => rfl) h hc)⟩

/-! ## Noninterference: STATUS -/

/-- Two states that differ at most in STATUS, and there not in RUN. -/
def SameButFaultRecord (t t' : State) : Prop := t'.status.run = t.status.run ∧ { t' with status := t.status } = t

theorem ending_withStatus (i : Instr) (s : State) (status : Status) :
    i.ending { s with status := status } = i.ending s := by
  cases i <;> rfl

theorem effect_withStatus (i : Instr) (s : State) (status : Status) :
    i.effect { s with status := status } = { i.effect s with status := status } := by
  cases i <;> rfl

@[simp] theorem effect_status (i : Instr) (s : State) : (i.effect s).status = s.status := by
  cases i <;> simp [Instr.effect]

theorem afterFault_withStatus (s : State) (status : Status) (kind : FaultKind) (opcode : Word) :
    SameButFaultRecord (s.afterFault kind opcode) ({ s with status := status }.afterFault kind opcode) := by
  unfold State.afterFault
  cases kind.halts s.cfg.strict <;> exact ⟨rfl, rfl⟩

/-- No instruction reads STATUS. -/
theorem exec_withStatus (status : Status) (h : exec i s = .next t) :
    ∃ t', exec i { s with status := status } = .next t' ∧ SameButFaultRecord t t' := by
  have hs := ending_withStatus i s status
  obtain ⟨he, rfl⟩ | ⟨he, rfl⟩ | ⟨kind, he, rfl⟩ := exec_cases h
  · refine ⟨_, exec_of_completes (hs.trans he), ?_⟩
    rw [effect_withStatus i s status]
    exact ⟨rfl, rfl⟩
  · exact ⟨_, exec_of_waits (hs.trans he), rfl, rfl⟩
  · exact ⟨_, exec_of_raises (hs.trans he), afterFault_withStatus s status kind _⟩

/-- Settles O19: fetch and decode read no STATUS, a running block's step looks at RUN only to see that it is not Halted,
and no instruction reads it. -/
theorem statusIsOnlyAReport : Obligations.StatusIsOnlyAReport := by
  intro s t status hs hstatus h
  obtain ⟨hr, -⟩ | ⟨-, hpc, hstep⟩ | ⟨-, w, e, hf, hd, hstep⟩ | ⟨-, w, i, hf, hd, hstep⟩ := step_cases s
  · exact absurd hr hs
  · obtain rfl : haltAtFetch s = t := by simpa [hstep] using h
    exact ⟨_, step_of_fetch_fault hstatus hpc, rfl, rfl⟩
  · obtain rfl : s.advance.afterFault .decodeFault w = t := by simpa [hstep, raise_eq] using h
    exact ⟨_, step_of_unknown hstatus hf hd, afterFault_withStatus s.advance status .decodeFault w⟩
  · obtain ⟨t', ht', hsame⟩ := exec_withStatus status (hstep.symm.trans h)
    exact ⟨t', (step_of_nextInstr (s := { s with status := status }) ⟨hstatus, w, hf, hd⟩).trans ht', hsame⟩

/-! ## Noninterference: the offered random bytes -/

/-- An answer whose next state offers `os` (log 2). -/
def offering (os : List Byte) : Outcome → Outcome
  | .next t => .next { t with offered := os }
  | .fault f => .fault f
  | .refused f => .refused f

theorem stepWith_eq (r : Byte) (s : State) :
    stepWith r s = offering s.offered (step { s with offered := [r] }) := by
  unfold stepWith offering
  cases step { s with offered := [r] } <;> rfl

theorem offering_offering (os os' : List Byte) (o : Outcome) : offering os (offering os' o) = offering os o := by
  cases o <;> rfl

theorem ending_withOffered (i : Instr) (s : State) (os : List Byte) :
    i.ending { s with offered := os } = i.ending s := by
  cases i <;> rfl

theorem effect_withOffered (os : List Byte) (s : State) (hi : ∀ x nn, i ≠ .rnd x nn) :
    i.effect { s with offered := os } = { i.effect s with offered := os } := by
  cases i with
  | rnd x nn => exact absurd rfl (hi x nn)
  | _ => rfl

theorem afterFault_withOffered (os : List Byte) (s : State) (kind : FaultKind) (opcode : Word) :
    { s with offered := os }.afterFault kind opcode = { s.afterFault kind opcode with offered := os } := by
  unfold State.afterFault
  cases kind.halts s.cfg.strict <;> rfl

/-- No instruction but CXNN reads the offered bytes. -/
theorem exec_withOffered (os : List Byte) (s : State) (hi : ∀ x nn, i ≠ .rnd x nn) :
    exec i { s with offered := os } = offering os (exec i s) := by
  rw [exec_eq, exec_eq, ending_withOffered]
  cases i.ending s with
  | completes => exact congrArg complete (effect_withOffered os s hi)
  | raises kind => exact congrArg Host.Outcome.next (afterFault_withOffered os s kind (encodeWord i))
  | waits | stops => rfl

/-- Nor does a step whose instruction is not CXNN. -/
theorem step_withOffered (os : List Byte) (h : ∀ x nn, ¬ s.nextInstr (.rnd x nn)) :
    step { s with offered := os } = offering os (step s) := by
  obtain ⟨hr, hstep⟩ | ⟨hr, hpc, hstep⟩ | ⟨hr, w, e, hf, hd, hstep⟩ | ⟨hr, w, i, hf, hd, hstep⟩ := step_cases s
  · rw [hstep]
    exact step_of_halted hr
  · rw [hstep]
    exact step_of_fetch_fault hr hpc
  · rw [hstep]
    exact (step_of_unknown (s := { s with offered := os }) hr hf hd).trans
      (congrArg _ (afterFault_withOffered os s.advance .decodeFault w))
  · have hi : ∀ x nn, i ≠ .rnd x nn := fun x nn hi => h x nn ⟨hr, w, hf, hi ▸ hd⟩
    rw [hstep, ← exec_withOffered os s.advance hi]
    exact step_of_nextInstr ⟨hr, w, hf, hd⟩

/-- Settles O23: every byte gives the step's own answer, offering what was offered before. -/
theorem randomByteReachesOnlyRnd : Obligations.RandomByteReachesOnlyRnd := by
  intro s r r' h
  have hbyte (b : Byte) : stepWith b s = offering s.offered (step s) := by
    rw [stepWith_eq, step_withOffered [b] h, offering_offering]
  exact (hbyte r).trans (hbyte r').symm

/-! ## Frames -/

theorem FrameExcept.refl (changed : Part → Prop) (s : State) : FrameExcept changed s s := by
  intro p _
  cases p with
  | faultRecord => exact ⟨rfl, rfl, rfl, rfl⟩
  | draws => exact ⟨rfl, rfl⟩
  | _ => exact rfl

theorem Part.same_trans {s t u : State} {p : Part} (h : p.same s t) (h' : p.same t u) : p.same s u := by
  cases p with
  | faultRecord =>
    obtain ⟨a, b, c, d⟩ := h
    obtain ⟨a', b', c', d'⟩ := h'
    exact ⟨a'.trans a, b'.trans b, c'.trans c, d'.trans d⟩
  | draws => exact ⟨h'.1.trans h.1, h'.2.trans h.2⟩
  | _ => exact Eq.trans h' h

theorem FrameExcept.trans {changed : Part → Prop} {s t u : State} (h : FrameExcept changed s t)
    (h' : FrameExcept changed t u) : FrameExcept changed s u :=
  fun p hp => Part.same_trans (h p hp) (h' p hp)

theorem FrameExcept.mono {c c' : Part → Prop} {s t : State} (h : FrameExcept c s t) (hc : ∀ p, c p → c' p) :
    FrameExcept c' s t :=
  fun p hp => h p (mt (hc p) hp)

theorem frame_setV (s : State) (r : Nibble) (b : Byte) : FrameExcept (fun p => p = .v r) s (s.setV r b) := by
  intro p hp
  cases p with
  | v q => exact (State.getV_setV s r q b).trans (if_neg fun hq => hp (congrArg Part.v hq))
  | _ => simp [Part.same, State.key]

theorem frame_setRun (s : State) (r : RunState) : FrameExcept (fun p => p = .run) s (s.setRun r) := by
  intro p hp
  cases p with
  | run => exact absurd rfl hp
  | _ => simp [Part.same, State.getV, State.key]

theorem frame_pc (s : State) (pc : Word) : FrameExcept (fun p => p = .pc) s { s with pc := pc } := by
  intro p hp
  cases p with
  | pc => exact absurd rfl hp
  | _ => simp [Part.same, State.getV, State.key]

theorem frame_draws (s : State) (os : List Byte) (n : Nat) :
    FrameExcept (fun p => p = .draws) s { s with offered := os, drawn := n } := by
  intro p hp
  cases p with
  | draws => exact absurd rfl hp
  | _ => simp [Part.same, State.getV, State.key]

/-! ## Noninterference: a register that R17 does not list as read -/

theorem setV_setV_same (s : State) (r : Nibble) (a b : Byte) : (s.setV r a).setV r b = s.setV r b := by
  simp [State.setV]

theorem setV_comm (s : State) {r x : Nibble} (h : r ≠ x) (a b : Byte) :
    (s.setV r a).setV x b = (s.setV x b).setV r a := by
  have : r.toNat ≠ x.toNat := fun e => h (BitVec.eq_of_toNat_eq e)
  simp [State.setV, Vector.set_comm _ _ this]

/-- The second state is the first but for the one register. -/
def SameButV (r : Nibble) (s s' : State) : Prop := ∃ b, s' = s.setV r b

theorem SameButV.setV {r : Nibble} {s s' : State} (h : SameButV r s s') (x : Nibble) (c : Byte) :
    SameButV r (s.setV x c) (s'.setV x c) := by
  obtain ⟨b, rfl⟩ := h
  by_cases hx : r = x
  · subst hx
    exact ⟨c, by rw [setV_setV_same, setV_setV_same]⟩
  · exact ⟨b, setV_comm s hx b c⟩

theorem SameButV.setVThenFlag {r : Nibble} {s s' : State} (h : SameButV r s s') (x : Nibble) (c f : Byte) :
    SameButV r (s.setVThenFlag x c f) (s'.setVThenFlag x c f) :=
  (h.setV x c).setV flagReg f

theorem ending_setV (i : Instr) (s : State) (r : Nibble) (b : Byte) : i.ending (s.setV r b) = i.ending s := by
  cases i <;> rfl

theorem getV_setV_ne (s : State) {r x : Nibble} (h : (r == x) = false) (b : Byte) : (s.setV r b).getV x = s.getV x :=
  (State.getV_setV s r x b).trans (if_neg (beq_eq_false_iff_ne.mp h).symm)

theorem firstRegs_setV (s : State) {r x : Nibble} (h : ¬ r.toNat ≤ x.toNat) (b : Byte) :
    (s.setV r b).firstRegs x = s.firstRegs x := by
  simp only [State.firstRegs, State.setV_v, Vector.toList_set]
  exact List.take_set_of_le (by omega)

theorem drawSprite_setV (s : State) {r x y : Nibble} (n : Nibble) (hx : (r == x) = false) (hy : (r == y) = false)
    (b : Byte) : SameButV r (s.drawSprite x y n) ((s.setV r b).drawSprite x y n) := by
  have hlist : drawList (s.setV r b) x y n = drawList s x y n := by
    simp only [drawList, getV_setV_ne s hx, getV_setV_ne s hy]
    rfl
  simp only [State.drawSprite, hlist, State.setV_display]
  exact SameButV.setV ⟨b, rfl⟩ _ _

theorem loadFirstRegs_setV (s : State) (r x : Nibble) (b : Byte) :
    SameButV r (s.loadFirstRegs x) ((s.setV r b).loadFirstRegs x) := by
  refine ⟨if r.toNat ≤ x.toNat then s.mem.read (s.base + r.toNat) else b, ?_⟩
  simp only [State.loadFirstRegs, State.setV, State.mk.injEq, and_true]
  ext k hk
  by_cases hr : r.toNat = k
  · subst hr
    simp [State.base]
  · simp [State.base, Vector.getElem_set, hr]

/-- The value a shift reads is not in a register R17 does not list. -/
theorem shiftSource_setV (s : State) {r x y : Nibble}
    (h : (if s.cfg.shiftUsesVy then r == y else r == x) = false) (b : Byte) :
    shiftSource (s.setV r b) x y = shiftSource s x y := by
  unfold shiftSource
  rw [State.setV_cfg]
  split_ifs at h ⊢
  · exact getV_setV_ne s h b
  · exact getV_setV_ne s h b

/-- A skip whose condition reads other registers goes the same way. -/
theorem skipTaken_setV {r : Nibble} (b : Byte) (h : i.readsV s.cfg r = false) :
    i.skipTaken (s.setV r b) = i.skipTaken s := by
  cases i with
  | seImm x nn | sneImm x nn => simp only [Instr.skipTaken, getV_setV_ne s h]
  | skp x | sknp x =>
    simp only [Instr.skipTaken, getV_setV_ne s h]
    rfl
  | seReg x y | sneReg x y =>
    obtain ⟨hx, hy⟩ := Bool.or_eq_false_iff.mp h
    simp only [Instr.skipTaken, getV_setV_ne s hx, getV_setV_ne s hy]
  | _ => rfl

/-- What an effect computes from other registers is the same, and what it writes hides the difference or keeps it. -/
theorem effect_setV {r : Nibble} (b : Byte) (h : i.readsV s.cfg r = false) :
    SameButV r (i.effect s) (i.effect (s.setV r b)) := by
  have hs : SameButV r s (s.setV r b) := ⟨b, rfl⟩
  cases i with
  | seImm | sneImm | seReg | sneReg | skp | sknp =>
    simp only [Instr.effect, skipTaken_setV b h]
    exact ⟨b, rfl⟩
  | ldImm | ldVxDt | ldVxK => exact hs.setV _ _
  | rnd => exact SameButV.setV (s := s.afterDraw) ⟨b, rfl⟩ _ _
  | addImm x nn | ldReg _ x =>
    simp only [Instr.effect, getV_setV_ne s h]
    exact hs.setV _ _
  | orReg x y | andReg x y | xorReg x y =>
    obtain ⟨hx, hy⟩ := Bool.or_eq_false_iff.mp h
    simp only [Instr.effect, getV_setV_ne s hx, getV_setV_ne s hy]
    exact hs.setV _ _
  | addReg x y | subReg x y | subn x y =>
    obtain ⟨hx, hy⟩ := Bool.or_eq_false_iff.mp h
    simp only [Instr.effect, getV_setV_ne s hx, getV_setV_ne s hy]
    exact hs.setVThenFlag _ _ _
  | shr x y | shl x y =>
    simp only [Instr.effect, shiftSource_setV s h]
    exact hs.setVThenFlag _ _ _
  | jpV0 =>
    simp only [Instr.effect, jumpV0Target, getV_setV_ne s h]
    exact ⟨b, rfl⟩
  | drw x y n =>
    obtain ⟨hx, hy⟩ := Bool.or_eq_false_iff.mp h
    obtain ⟨b', hb'⟩ := hs.setV flagReg 0#8
    simp only [Instr.effect, hb']
    exact drawSprite_setV _ n hx hy b'
  | ldDtVx x | ldStVx x | addI x | ldF x | ldB x =>
    simp only [Instr.effect, getV_setV_ne s h]
    exact ⟨b, rfl⟩
  | storeRegs x =>
    simp only [Instr.effect, firstRegs_setV s (decide_eq_false_iff_not.mp h)]
    exact ⟨b, rfl⟩
  | loadRegs x =>
    obtain ⟨b', hb'⟩ := loadFirstRegs_setV s r x b
    simp only [Instr.effect, hb']
    exact ⟨b', rfl⟩
  | cls | ret | sys | jp | call | ldI => exact ⟨b, rfl⟩

theorem afterFault_setV (s : State) (r : Nibble) (b : Byte) (kind : FaultKind) (opcode : Word) :
    (s.setV r b).afterFault kind opcode = (s.afterFault kind opcode).setV r b := by
  unfold State.afterFault
  rw [State.setV_cfg]
  cases kind.halts s.cfg.strict <;> rfl

/-- An instruction that does not read the register answers the same state but for that register. -/
theorem exec_setV {r : Nibble} (b : Byte) (hr : i.readsV s.cfg r = false) (h : exec i s = .next t) :
    ∃ t', exec i (s.setV r b) = .next t' ∧ SameButV r t t' := by
  have he' := ending_setV i s r b
  obtain ⟨he, rfl⟩ | ⟨he, rfl⟩ | ⟨kind, he, rfl⟩ := exec_cases h
  · obtain ⟨b', hb'⟩ := effect_setV b hr
    exact ⟨_, exec_of_completes (he'.trans he), b', congrArg (·.setRun .running) hb'⟩
  · exact ⟨_, exec_of_waits (he'.trans he), b, rfl⟩
  · exact ⟨_, exec_of_raises (he'.trans he), b, afterFault_setV s r b kind _⟩

/-- Settles O21: the answer to the changed register file is the answer to the first with one register changed. -/
theorem unlistedRegistersAreNotRead : Obligations.UnlistedRegistersAreNotRead := by
  intro i s t r b hr h
  obtain ⟨t', ht', b', rfl⟩ := exec_setV b hr h
  exact ⟨_, ht', frame_setV t r b'⟩

/-! ## The invariant of R79 -/

theorem exec_answers_next (i : Instr) (h : s.sp.toNat ≤ 16) : ∃ t, exec i s = .next t := by
  cases he : i.ending s with
  | completes => exact ⟨_, exec_of_completes he⟩
  | waits => exact ⟨_, exec_of_waits he⟩
  | raises kind => exact ⟨_, exec_of_raises he⟩
  | stops => exact absurd (sp_of_ending_stops he) (by omega)

theorem step_answers_next (h : s.sp.toNat ≤ 16) : ∃ t, step s = .next t := by
  obtain ⟨-, hstep⟩ | ⟨-, -, hstep⟩ | ⟨-, w, e, -, -, hstep⟩ | ⟨-, w, i, -, -, hstep⟩ := step_cases s
  · exact ⟨_, hstep⟩
  · exact ⟨_, hstep⟩
  · exact ⟨_, hstep⟩
  · rw [hstep]
    exact exec_answers_next i h

theorem exec_ne_refused (i : Instr) (s : State) (r : Refusal) : exec i s ≠ .refused r := by
  rw [exec_eq]
  cases i.ending s <;> simp [Ending.answer, complete_eq, block_eq, raise_eq]

theorem step_ne_refused (s : State) (r : Refusal) : step s ≠ .refused r := by
  obtain ⟨-, hstep⟩ | ⟨-, -, hstep⟩ | ⟨-, w, e, -, -, hstep⟩ | ⟨-, w, i, -, -, hstep⟩ := step_cases s
  · simp [hstep]
  · simp [hstep]
  · simp [hstep, raise_eq]
  · rw [hstep]
    exact exec_ne_refused i _ r

/-- Settles O12: no ending is a refusal, and only a stack pointer above 16 ends in a stop of the model. -/
theorem stepAnswersNext : Obligations.StepAnswersNext :=
  ⟨fun _ h => step_answers_next h, step_ne_refused⟩

theorem zext16_toNat (a : Addr) : (zext16 a).toNat = a.toNat := by
  simp only [zext16, BitVec.toNat_setWidth]
  omega

theorem jumpV0Target_toNat (s : State) (nnn : Addr) :
    (jumpV0Target s nnn).toNat = nnn.toNat + (s.getV 0#4).toNat := by
  simp only [jumpV0Target, BitVec.toNat_add, zext16_toNat, BitVec.toNat_setWidth]
  omega

theorem effect_sp_le (he : i.ending s = .completes) (h : s.sp.toNat ≤ 16) : (i.effect s).sp.toNat ≤ 16 := by
  cases i with
  | ret =>
    have := sp_of_ret_completes he
    simp only [Instr.effect]
    bv_omega
  | call nnn =>
    have := sp_of_call_completes he
    simp only [Instr.effect]
    bv_omega
  | _ => simpa [Instr.effect] using h

/-- A skip adds 2, a jump goes to at most 0xFFF + 0xFF, and RET to a stack slot. -/
theorem effect_pc_le (hpc : s.pc.toNat ≤ 0x1000) (hslots : ∀ j : Fin 16, s.stack[j.val].toNat ≤ 0x1000) :
    (i.effect s).pc.toNat ≤ 0x10FE := by
  cases i with
  | jp nnn | call nnn =>
    simp only [Instr.effect, zext16_toNat]
    omega
  | jpV0 nnn =>
    simp only [Instr.effect, jumpV0Target_toNat]
    omega
  | ret =>
    simp only [Instr.effect]
    split
    · exact le_trans (hslots ⟨_, ‹_›⟩) (by decide)
    · omega
  | seImm | sneImm | seReg | sneReg | skp | sknp =>
    simp only [Instr.effect]
    split <;> bv_omega
  | _ => simpa [Instr.effect] using le_trans hpc (by decide)

/-- CALL stores PC and no other instruction stores a slot. -/
theorem effect_slot_le (hpc : s.pc.toNat ≤ 0x1000) (hslots : ∀ j : Fin 16, s.stack[j.val].toNat ≤ 0x1000) (j : Fin 16) :
    (i.effect s).stack[j.val].toNat ≤ 0x1000 := by
  cases i with
  | call nnn =>
    simp only [Instr.effect]
    split
    · rw [Vector.getElem_set]
      split
      · exact hpc
      · exact hslots j
    · exact hslots j
  | _ => simpa [Instr.effect] using hslots j

/-- FX33 and FX55 store only in the range they checked. -/
theorem effect_mem_wf (he : i.ending s = .completes) (h : s.mem.wf = true) : (i.effect s).mem.wf = true := by
  cases i with
  | ldB x =>
    have hrange := (State.iInRange_iff s 3).mp (iInRange_of_ending_completes he rfl)
    exact Memory.wf_writeBytes h (by rw [length_decimalDigits, State.base, Config.memorySize]; omega)
  | storeRegs x =>
    have hrange := (State.iInRange_iff s _).mp (iInRange_of_ending_completes he rfl)
    exact Memory.wf_writeBytes h (by rw [length_firstRegs, State.base, Config.memorySize]; omega)
  | _ => simpa [Instr.effect] using h

/-- An instruction keeps the invariant from PC = P + 2 with P at most 0xFFE, where the fetch leaves it. -/
theorem exec_inv (hinv : s.Inv) (hlo : 2 ≤ s.pc.toNat) (hhi : s.pc.toNat ≤ 0x1000) (h : exec i s = .next t) : t.Inv := by
  obtain ⟨hsp, hpc, hslots, hmem⟩ := hinv
  obtain ⟨he, rfl⟩ | ⟨-, rfl⟩ | ⟨kind, -, rfl⟩ := exec_cases h
  · exact ⟨effect_sp_le he hsp, effect_pc_le hhi hslots, effect_slot_le hhi hslots, effect_mem_wf he hmem⟩
  · exact ⟨hsp, by simp only [State.setRun_pc]; bv_omega, hslots, hmem⟩
  · simpa [State.Inv] using ⟨hsp, hpc, hslots, hmem⟩

theorem step_inv (hinv : s.Inv) (h : step s = .next t) : t.Inv := by
  have hadvance {w : Word} (hf : fetchWord s = some w) : 2 ≤ s.advance.pc.toNat ∧ s.advance.pc.toNat ≤ 0x1000 := by
    have := (fetchWord_eq_some.mp hf).1
    simp only [State.advance_pc]
    bv_omega
  have hinv' {w : Word} (hf : fetchWord s = some w) : s.advance.Inv := by
    obtain ⟨hsp, -, hslots, hmem⟩ := hinv
    exact ⟨hsp, le_trans (hadvance hf).2 (by decide), hslots, hmem⟩
  obtain ⟨-, hstep⟩ | ⟨-, -, hstep⟩ | ⟨-, w, e, hf, -, hstep⟩ | ⟨-, w, i, hf, -, hstep⟩ := step_cases s
  · obtain rfl : s = t := by simpa [hstep] using h
    exact hinv
  · obtain rfl : haltAtFetch s = t := by simpa [hstep] using h
    exact hinv
  · obtain rfl : s.advance.afterFault .decodeFault w = t := by simpa [hstep, raise_eq] using h
    simpa [State.Inv] using hinv' hf
  · exact exec_inv (hinv' hf) (hadvance hf).1 (hadvance hf).2 (hstep.symm.trans h)

/-! ## Transactions -/

theorem resetWith_inv (font : Vector Byte 80) (cfg : Cfg) : (State.resetWith font cfg).Inv :=
  ⟨(by decide : State.reset.sp.toNat ≤ 16), (by decide : State.reset.pc.toNat ≤ 0x10FE),
    (by decide : ∀ j : Fin 16, State.reset.stack[j.val].toNat ≤ 0x1000), Memory.wf_ofFont font⟩

theorem load_inv (rom : List Byte) (h : s.Inv) : (s.load rom).Inv := by
  obtain ⟨hsp, hpc, hslots, hmem⟩ := h
  unfold State.load
  split_ifs with hfit
  · exact ⟨hsp, hpc, hslots, Memory.wf_loadProgram hmem (of_decide_eq_true hfit)⟩
  · exact ⟨hsp, hpc, hslots, hmem⟩
  · exact ⟨hsp, hpc, hslots, hmem⟩

theorem stepWith_of_next {r : Byte} (h : step { s with offered := [r] } = .next t) :
    stepWith r s = .next { t with offered := s.offered } := by
  rw [stepWith_eq, h]
  rfl

theorem transact_inv (font : Vector Byte 80) (tr : Transaction) (h : s.Inv) :
    ∃ t, transact font tr s = .next t ∧ t.Inv := by
  cases tr with
  | reset cfg => exact ⟨_, rfl, resetWith_inv font cfg⟩
  | load rom => exact ⟨_, rfl, load_inv rom h⟩
  | step r =>
    have h' : ({ s with offered := [r] } : State).Inv := h
    obtain ⟨t, ht⟩ := step_answers_next h'.1
    have ht' : t.Inv := step_inv h' ht
    exact ⟨_, stepWith_of_next ht, ht'⟩
  | tick | key | read => exact ⟨_, rfl, h⟩

/-- Settles O15, by induction on the transactions. -/
theorem transactionsKeepInvariant : Obligations.TransactionsKeepInvariant := by
  intro font ts
  induction ts with
  | nil => exact fun s h => ⟨s, rfl, h⟩
  | cons tr ts ih =>
    intro s h
    obtain ⟨u, hu, hinv⟩ := transact_inv font tr h
    simp only [transactAll, hu]
    exact ih u hinv

/-! ## PC after a step (R19) -/

theorem effect_pc_of_plain (hj : i.jumps = false) (hs : i.skipTaken s = false) : (i.effect s).pc = s.pc := by
  cases i with
  | ret | jp | call | jpV0 => cases hj
  | seImm | sneImm | seReg | sneReg | skp | sknp => simp [Instr.effect, hs]
  | _ => simp [Instr.effect]

theorem effect_pc_of_skipTaken (hs : i.skipTaken s = true) : (i.effect s).pc = s.pc + 2#16 := by
  cases i with
  | seImm | sneImm | seReg | sneReg | skp | sknp => simp [Instr.effect, hs]
  | _ => cases hs

/-- A memory instruction is no jump, no skip and no FX0A. -/
theorem plain_of_access (h : i.accessCount.isSome = true) :
    i.jumps = false ∧ i.skipTaken s = false ∧ ∀ x, i ≠ .ldVxK x := by
  cases i with
  | drw | ldB | storeRegs | loadRegs => exact ⟨rfl, rfl, fun _ => Instr.noConfusion⟩
  | _ => cases h

/-- The ways PC can be left by an instruction that does not halt, where the fetch left it at P + 2 (R19). -/
def PcAfter (i : Instr) (s : State) (pc : Word) : Prop :=
  (pc = s.pc ∧ i.jumps = false ∧ i.skipTaken s = false ∧ ∀ x, i = .ldVxK x → ∃ k, s.key k = true) ∨
  (pc = s.pc + 2#16 ∧ i.skipTaken s = true) ∨
  (∃ nnn, (i = .jp nnn ∨ i = .call nnn) ∧ pc.toNat = nnn.toNat) ∨
  (∃ nnn, i = .jpV0 nnn ∧ pc.toNat = nnn.toNat + (s.getV 0#4).toNat) ∨
  (i = .ret ∧ ∃ h : s.sp.toNat - 1 < 16, 0 < s.sp.toNat ∧ pc = s.stack[s.sp.toNat - 1]'h) ∨
  (pc = s.pc - 2#16 ∧ (∀ k, s.key k = false) ∧ ∃ x, i = .ldVxK x)

/-- A completed jump goes to its target. -/
theorem pcAfter_of_jump (he : i.ending s = .completes) (hj : i.jumps = true) : PcAfter i s (i.effect s).pc := by
  cases i with
  | jp nnn => exact .inr (.inr (.inl ⟨nnn, .inl rfl, zext16_toNat nnn⟩))
  | call nnn => exact .inr (.inr (.inl ⟨nnn, .inr rfl, zext16_toNat nnn⟩))
  | jpV0 nnn => exact .inr (.inr (.inr (.inl ⟨nnn, rfl, jumpV0Target_toNat s nnn⟩)))
  | ret =>
    obtain ⟨hpos, hle⟩ := sp_of_ret_completes he
    exact .inr (.inr (.inr (.inr (.inl ⟨rfl, by omega, hpos, dif_pos _⟩))))
  | _ => cases hj

theorem pcAfter_of_completes (he : i.ending s = .completes) : PcAfter i s (i.effect s).pc := by
  cases hj : i.jumps with
  | true => exact pcAfter_of_jump he hj
  | false =>
    cases hs : i.skipTaken s with
    | true => exact .inr (.inl ⟨effect_pc_of_skipTaken hs, hs⟩)
    | false =>
      refine .inl ⟨effect_pc_of_plain hj hs, hj, hs, ?_⟩
      rintro x rfl
      exact key_of_ldVxK_completes he

theorem exec_pc (h : exec i s = .next t) (ht : t.status.run ≠ .halted) : PcAfter i s t.pc := by
  obtain ⟨he, rfl⟩ | ⟨he, rfl⟩ | ⟨kind, he, rfl⟩ := exec_cases h
  · exact pcAfter_of_completes he
  · obtain ⟨hx, hkeys⟩ := keys_of_ending_waits he
    exact .inr (.inr (.inr (.inr (.inr ⟨rfl, hkeys, hx⟩))))
  · have hk : kind.halts s.cfg.strict = false := by
      by_contra hk
      exact ht (by rw [State.afterFault_of_halts _ (by simpa using hk)]; rfl)
    obtain ⟨hj, hs, hx⟩ := plain_of_access (s := s) (access_of_ending_raises he hk)
    exact .inl ⟨State.afterFault_pc _ _ _, hj, hs, fun x hi => absurd hi (hx x)⟩

theorem skipTaken_advance (i : Instr) (s : State) : i.skipTaken s.advance = i.skipTaken s := by
  cases i <;> rfl

/-- Settles O16: the fetch leaves PC at P + 2, and the instruction as `exec_pc` says. -/
theorem pcAfterStepIsOneOfR19 : Obligations.PcAfterStepIsOneOfR19 := by
  intro s t hs h ht
  obtain ⟨hr, -⟩ | ⟨-, -, hstep⟩ | ⟨-, w, e, hf, hd, hstep⟩ | ⟨-, w, i, hf, hd, hstep⟩ := step_cases s
  · exact absurd hr hs
  · obtain rfl : haltAtFetch s = t := by simpa [hstep] using h
    exact absurd rfl ht
  · obtain rfl : s.advance.afterFault .decodeFault w = t := by simpa [hstep, raise_eq] using h
    exact ⟨w, hf, .inl ⟨State.afterFault_pc _ _ _, .inl ⟨e, hd⟩⟩⟩
  · refine ⟨w, hf, ?_⟩
    obtain ⟨hpc, hj, hskip, hkey⟩ | ⟨hpc, hskip⟩ | ⟨nnn, rfl | rfl, hpc⟩ | ⟨nnn, rfl, hpc⟩ | ⟨rfl, hslot⟩ |
        ⟨hpc, hkey, x, rfl⟩ := exec_pc (hstep.symm.trans h) ht
    · exact .inl ⟨hpc, .inr ⟨i, hd, hj, (skipTaken_advance i s).symm.trans hskip, hkey⟩⟩
    · refine .inr (.inl ⟨?_, i, hd, (skipTaken_advance i s).symm.trans hskip⟩)
      rw [hpc, State.advance_pc, BitVec.add_assoc]
      rfl
    · exact .inr (.inr (.inl ⟨nnn, .inl hd, hpc⟩))
    · exact .inr (.inr (.inl ⟨nnn, .inr hd, hpc⟩))
    · exact .inr (.inr (.inr (.inl ⟨nnn, hd, hpc⟩)))
    · exact .inr (.inr (.inr (.inr (.inl ⟨hd, hslot⟩))))
    · refine .inr (.inr (.inr (.inr (.inr ⟨?_, hkey, x, hd⟩))))
      rw [hpc, State.advance_pc, BitVec.add_sub_cancel]

/-! ## What steps and transactions keep -/

/-- What every effect keeps, every step keeps. -/
theorem step_keeps {α : Type} {f : State → α} (hf : IgnoresPcAndStatus f)
    (he : ∀ (i : Instr) s, f (i.effect s) = f s) (h : step s = .next t) : f t = f s := by
  have hadvance : f s.advance = f s := hf s (s.pc + 2#16) s.status
  obtain ⟨-, hstep⟩ | ⟨-, -, hstep⟩ | ⟨-, w, e, -, -, hstep⟩ | ⟨-, w, i, -, -, hstep⟩ := step_cases s
  · obtain rfl : s = t := by simpa [hstep] using h
    rfl
  · obtain rfl : haltAtFetch s = t := by simpa [hstep] using h
    exact hf s s.pc _
  · obtain ⟨-, rfl⟩ | ⟨-, rfl⟩ := raise_cases (hstep.symm.trans h)
    · exact hf s (s.pc + 2#16) _
    · exact hf s (s.pc + 2#16) _
  · exact (exec_keeps hf (hstep.symm.trans h) (he i s.advance)).trans hadvance

/-- A STEP is a step with its byte offered, and what was offered before is offered after it (log 2). -/
theorem stepWith_cases {r : Byte} (h : stepWith r s = .next t) :
    ∃ u, step { s with offered := [r] } = .next u ∧ t = { u with offered := s.offered } := by
  rw [stepWith_eq] at h
  cases hu : step { s with offered := [r] } with
  | next u => exact ⟨u, rfl, by simpa [hu, offering] using h.symm⟩
  | fault f | refused f => simp [hu, offering] at h

/-- What every effect keeps and no offered byte influences, every STEP keeps. -/
theorem stepWith_keeps {α : Type} {f : State → α} {r : Byte}
    (hf : IgnoresPcAndStatus f)
    (ho : ∀ s os, f { s with offered := os } = f s) (he : ∀ (i : Instr) s, f (i.effect s) = f s)
    (h : stepWith r s = .next t) : f t = f s := by
  obtain ⟨u, hu, rfl⟩ := stepWith_cases h
  exact (ho u _).trans ((step_keeps hf he hu).trans (ho s _))

theorem stepWith_keys {r : Byte} (h : stepWith r s = .next t) : t.keys = s.keys :=
  stepWith_keeps (fun _ _ _ => rfl) (fun _ _ => rfl) effect_keys h

theorem stepWith_cfg {r : Byte} (h : stepWith r s = .next t) : t.cfg = s.cfg :=
  stepWith_keeps (fun _ _ _ => rfl) (fun _ _ => rfl) effect_cfg h

@[simp] theorem load_keys (s : State) (rom : List Byte) : (s.load rom).keys = s.keys := by
  unfold State.load
  split_ifs <;> rfl

@[simp] theorem load_cfg (s : State) (rom : List Byte) : (s.load rom).cfg = s.cfg := by
  unfold State.load
  split_ifs <;> rfl

theorem frame_keyEvent (s : State) (k : Nibble) (down : Bool) :
    FrameExcept (fun p => p = .key k) s (s.keyEvent k down) := by
  intro p hp
  cases p with
  | key j => exact (State.key_keyEvent s k j down).trans (if_neg fun hj => hp (congrArg Part.key hj))
  | _ => simp [Part.same, State.getV]

theorem transact_keys {font : Vector Byte 80} {tr : Transaction} (hkey : ∀ k down, tr ≠ .key k down)
    (hreset : ∀ cfg, tr ≠ .reset cfg) (h : transact font tr s = .next t) : t.keys = s.keys := by
  cases tr with
  | reset cfg => exact absurd rfl (hreset cfg)
  | key k down => exact absurd rfl (hkey k down)
  | step r => exact stepWith_keys h
  | load rom =>
    cases h
    exact load_keys s rom
  | tick | read =>
    cases h
    rfl

/-- Settles O53: KEY by its frame, and of the other transactions only STEP runs instructions, whose effects keep the
keypad. -/
theorem onlyKeyEventsWriteKeys : Obligations.OnlyKeyEventsWriteKeys := by
  refine ⟨fun k down s => ⟨?_, frame_keyEvent s k down⟩, ?_⟩
  · rw [State.key_keyEvent, if_pos rfl]
  · intro font tr s t hkey hreset h k
    simp only [State.key, transact_keys hkey hreset h]

theorem transact_cfg {font : Vector Byte 80} {tr : Transaction} (hreset : ∀ cfg, tr ≠ .reset cfg)
    (h : transact font tr s = .next t) : t.cfg = s.cfg := by
  cases tr with
  | reset cfg => exact absurd rfl (hreset cfg)
  | step r => exact stepWith_cfg h
  | load rom =>
    cases h
    exact load_cfg s rom
  | tick | key | read =>
    cases h
    rfl

theorem transactAll_cons {font : Vector Byte 80} {tr : Transaction} {ts : List Transaction}
    (h : transactAll font (tr :: ts) s = .next t) :
    ∃ u, transact font tr s = .next u ∧ transactAll font ts u = .next t := by
  rw [transactAll] at h
  cases hu : transact font tr s with
  | next u => exact ⟨u, rfl, by simpa [hu] using h⟩
  | fault f | refused f => simp [hu] at h

/-- Settles O54, by induction on the transactions. -/
theorem onlyResetWritesCfg : Obligations.OnlyResetWritesCfg := by
  intro font ts
  induction ts with
  | nil =>
    intro s t _ h
    cases h
    rfl
  | cons tr ts ih =>
    intro s t hreset h
    obtain ⟨u, hu, hrest⟩ := transactAll_cons h
    have hcfg : u.cfg = s.cfg := transact_cfg (fun cfg e => hreset cfg (e ▸ List.mem_cons_self)) hu
    exact (ih u t (fun cfg hmem => hreset cfg (List.mem_cons_of_mem tr hmem)) hrest).trans hcfg

/-! ## Ticks (R137) -/

theorem countDown_toNat (b : Byte) : (countDown b).toNat = b.toNat - 1 := by
  unfold countDown
  split <;> bv_omega

theorem frame_tick (s : State) : FrameExcept (fun p => p = .dt ∨ p = .st) s s.tick := by
  intro p hp
  cases p with
  | dt => exact absurd (.inl rfl) hp
  | st => exact absurd (.inr rfl) hp
  | _ => simp [Part.same, State.getV, State.key]

/-- Settles O52, by induction on the ticks. -/
theorem ticksCountDown : Obligations.TicksCountDown := by
  intro n
  induction n with
  | zero =>
    rintro s t rfl
    exact ⟨rfl, rfl, FrameExcept.refl _ _⟩
  | succ n ih =>
    rintro s t rfl
    obtain ⟨hdt, hst, hframe⟩ := ih s.tick _ rfl
    rw [State.tick_dt, countDown_toNat, Nat.sub_sub, Nat.add_comm] at hdt
    rw [State.tick_st, countDown_toNat, Nat.sub_sub, Nat.add_comm] at hst
    exact ⟨hdt, hst, (frame_tick s).trans hframe⟩

/-! ## CXNN, RESET and READ -/

/-- CXNN changes its register, RUN and the model's count of draws. -/
theorem exec_rnd (x : Nibble) (nn : Byte) (s : State) :
    ∃ t, exec (.rnd x nn) s = .next t ∧ t.getV x = s.draw8 &&& nn ∧ t.pc = s.pc ∧ t.status.run = .running ∧
      FrameExcept (fun p => p = .v x ∨ p = .run ∨ p = .draws) s t := by
  refine ⟨(s.afterDraw.setV x (s.draw8 &&& nn)).setRun .running, rfl, ?_, rfl, rfl, ?_⟩
  · exact (State.getV_setV _ x x _).trans (if_pos rfl)
  · have hdraw : FrameExcept (fun p => p = .v x ∨ p = .run ∨ p = .draws) s s.afterDraw :=
      (frame_draws s _ _).mono fun _ hp => .inr (.inr hp)
    exact (hdraw.trans ((frame_setV _ x _).mono fun _ hp => .inl hp)).trans
      ((frame_setRun _ _).mono fun _ hp => .inr (.inl hp))

/-- Settles O36: the byte a STEP offers is the one CXNN draws. -/
theorem rndMasksTheDraw : Obligations.RndMasksTheDraw := by
  intro x nn s
  refine ⟨?_, fun r hnext => ?_⟩
  · obtain ⟨t, ht, hv, -, hrun, hframe⟩ := exec_rnd x nn s
    exact ⟨t, ht, hv, hrun, hframe⟩
  · obtain ⟨u, hu, hv, hpc, hrun, hframe⟩ := exec_rnd x nn { s with offered := [r] }.advance
    have hstep : step { s with offered := [r] } = .next u :=
      (step_of_nextInstr (s := { s with offered := [r] }) hnext).trans hu
    refine ⟨_, stepWith_of_next hstep, hv, hpc, hrun, ?_⟩
    have hoffer : FrameExcept (fun p => p = .draws) s { s with offered := [r] } := frame_draws s [r] s.drawn
    have hadvance := frame_pc { s with offered := [r] } (s.pc + 2#16)
    have hback : FrameExcept (fun p => p = .draws) u { u with offered := s.offered } := frame_draws u s.offered u.drawn
    refine (((hoffer.mono ?_).trans (hadvance.mono ?_)).trans (hframe.mono ?_)).trans (hback.mono ?_)
    · exact fun _ hp => .inr (.inr (.inr hp))
    · exact fun _ hp => .inr (.inl hp)
    · exact fun _ hp => hp.imp id .inr
    · exact fun _ hp => .inr (.inr (.inr hp))

theorem resetWith_read_font (font : Vector Byte 80) (cfg : Cfg) {a : Nat} (h : a < 80) :
    (State.resetWith font cfg).mem.read a = font[a] := by
  refine (Memory.read_cellsFrom 0 a font.toList).trans ?_
  rw [dif_pos (by simpa using h)]
  simp

theorem resetWith_read_above (font : Vector Byte 80) (cfg : Cfg) {a : Nat} (h : 80 ≤ a) :
    (State.resetWith font cfg).mem.read a = 0 := by
  refine (Memory.read_cellsFrom 0 a font.toList).trans ?_
  rw [dif_neg (by simpa using h), Memory.blank_above a h]

/-- Settles O51: each field of the state RESET leaves. -/
theorem resetValues : Obligations.ResetValues := by
  intro font cfg s
  refine ⟨_, rfl, ?_⟩
  refine ⟨?_, rfl, rfl, rfl, ?_, rfl, rfl, ?_, fun p _ => pixelOf_clear p, fun a h => resetWith_read_font font cfg h,
    fun a h _ => resetWith_read_above font cfg h, rfl, ?_, rfl, rfl⟩
  · intro r
    exact Vector.getElem_replicate _
  · intro j
    exact Vector.getElem_replicate _
  · intro k
    exact Vector.getElem_replicate _
  · exact (by decide : Status.reset.word = 0)

/-! The fields of the word of STATUS (R33). -/

theorem word_run (t : Status) : t.word.extractLsb' 0 2 = t.run.code :=
  BitVec.extractLsb'_append_eq_right

theorem word_fault (t : Status) : t.word.extractLsb' 2 3 = faultCode t.fault := by
  rw [Status.word, BitVec.extractLsb'_append_eq_of_le (by decide)]
  exact BitVec.extractLsb'_append_eq_right

theorem word_fetch (t : Status) : t.word.getLsbD 5 = t.fetch := by
  simp only [Status.word, BitVec.getLsbD_append]
  simp

theorem word_zeros (t : Status) : t.word.extractLsb' 6 10 = 0#10 := by
  simp only [Status.word, BitVec.extractLsb'_append_eq_of_le, Nat.reduceLeDiff, Nat.reduceSub]
  exact BitVec.extractLsb'_append_eq_right

theorem word_faultPc (t : Status) : t.word.extractLsb' 16 16 = t.faultPc := by
  simp only [Status.word, BitVec.extractLsb'_append_eq_of_le, Nat.reduceLeDiff, Nat.reduceSub]
  exact BitVec.extractLsb'_append_eq_right

theorem word_faultOp (t : Status) : t.word.extractLsb' 32 16 = t.faultOp := by
  simp only [Status.word, BitVec.extractLsb'_append_eq_of_le, Nat.reduceLeDiff, Nat.reduceSub]
  exact BitVec.extractLsb'_eq_self

/-- Settles O58, field by field. -/
theorem readReportsTheStatusLayout : Obligations.ReadReportsTheStatusLayout := by
  intro font s
  refine ⟨rfl, rfl, ?_, ?_, ?_, word_fetch _, word_zeros _, word_faultPc _, word_faultOp _⟩
  · simp only [State.readout, State.soundOn, decide_eq_true_eq, ne_eq]
    bv_omega
  · refine (word_run s.status).trans ?_
    cases s.status.run <;> rfl
  · refine (word_fault s.status).trans ?_
    rcases s.status.fault with _ | _ | _ | _ | _ | _ <;> rfl

end Sys2Proof.Machine

/-! PROOFS. Memory: what a fetch reads after a store, an access out of range, and the fetch fault. -/

namespace Sys2Proof.Machine

variable {i : Instr} {s : State}

/-! ## Accesses in and out of range (R49, R106) -/

/-- The check of the range alone decides how a memory instruction ends. -/
theorem ending_of_accessCount {n : Nat} (h : i.accessCount = some n) :
    i.ending s = if s.iInRange n then .completes else .raises .memoryFault := by
  cases i with
  | drw | ldB | storeRegs | loadRegs => cases h; rfl
  | _ => cases h

/-- Settles O18: the range check fails before any access, so the instruction is the MemoryFault it raises. -/
theorem outOfRangeAccessDoesNothing : Obligations.OutOfRangeAccessDoesNothing := by
  intro i count s hcount hpos hout
  have hrange : s.iInRange count = false := (State.iInRange_eq_false_iff s count).mpr ⟨hpos, hout⟩
  have hraises : i.ending s = .raises .memoryFault := by simp [ending_of_accessCount hcount, hrange]
  rw [exec_of_raises hraises]
  refine ⟨fun hstrict => ?_, fun hlenient => ?_⟩
  · exact congrArg _ (State.afterFault_of_halts (k := .memoryFault) _ hstrict)
  · exact congrArg _ (State.afterFault_of_ignored (k := .memoryFault) _ hlenient)

/-- Settles O9: `haltAtFetch` is this state, whatever the mode. -/
theorem fetchFaultHaltsInBothModes : Obligations.FetchFaultHaltsInBothModes :=
  fun _ hrun hpc => step_of_fetch_fault hrun hpc

/-! ## A fetch after a store (R46, R55, R71) -/

/-- The word read from inside a stored run is two adjacent bytes of it. -/
theorem Memory.readWord_writeBytes (m : Memory) (a k : Nat) {bs : List Byte} (h : k + 1 < bs.length) :
    (m.writeBytes a bs).readWord (a + k) = wordOfBytes bs[k] bs[k + 1] := by
  simp only [Memory.readWord, Memory.read_writeBytes]
  rw [dif_pos (by omega), dif_pos (by omega)]
  simp only [Nat.add_assoc, Nat.add_sub_cancel_left]

theorem fetchWord_storeAtPc (w : Word) (hpc : s.pc.toNat ≤ 0xFFE) : fetchWord (s.storeAtPc w) = some w := by
  refine fetchWord_eq_some.mpr ⟨hpc, ?_⟩
  exact ((Memory.readWord_writeBytes s.mem s.pc.toNat 0 (bs := bytesOfWord w) (by simp [bytesOfWord])).trans
    (wordOfBytes_bytesOfWord w)).symm

theorem decodeWord_of_decodeTableWord {nbits w : Nat} (h : decodeTableWord nbits w = some i) :
    decodeWord (tableWord nbits w) = .ok i := by
  have hbytes := decode_bytesOfWord (tableWord nbits w) []
  rw [List.append_nil] at hbytes
  rw [decodeTableWord, hbytes] at h
  cases hd : decodeWord (tableWord nbits w) with
  | ok j => simpa [hd, Except.map] using h
  | error e => simp [hd, Except.map] at h

theorem frame_storeAtPc (s : State) (w : Word) :
    FrameExcept (fun p => p = .byte s.pc.toNat ∨ p = .byte (s.pc.toNat + 1)) s (s.storeAtPc w) := by
  intro p hp
  cases p with
  | byte a =>
    simp only [Part.byte.injEq, not_or] at hp
    exact Memory.read_writeBytes_outside s.mem (by simp only [bytesOfWord, List.length_cons, List.length_nil]; omega)
  | _ => simp [Part.same, State.getV, State.key]

/-- Settles O7: the stored word is fetched, and it decodes to the instruction. -/
theorem storedWordIsTheOneFetched : Obligations.StoredWordIsTheOneFetched := by
  intro s nbits w i hrun hpc hdecode
  refine ⟨?_, frame_storeAtPc s _⟩
  exact step_of_nextInstr ⟨hrun, _, fetchWord_storeAtPc _ hpc, decodeWord_of_decodeTableWord hdecode⟩

theorem getElem_firstRegs (s : State) (x r : Nibble) (h : r.toNat < (s.firstRegs x).length) :
    (s.firstRegs x)[r.toNat] = s.getV r := by
  simp only [State.firstRegs, List.getElem_take, Vector.getElem_toList, State.getV]

/-- Settles O42: FX55 stores both registers as one word of its run, high byte first, and its range check covers both. -/
theorem storedOpcodeIsFetchedNext : Obligations.StoredOpcodeIsFetchedNext := by
  intro x k s hrange hk
  have hnext : (k + 1).toNat = k.toNat + 1 := by bv_omega
  have hpc : (s.i + k.setWidth 16).toNat = s.i.toNat + k.toNat := by bv_omega
  have hcompletes : (Instr.storeRegs x).ending s = .completes := by
    rw [ending_of_accessCount rfl, if_pos ((State.iInRange_iff s _).mpr (by omega))]
  have hlength : k.toNat + 1 < (s.firstRegs x).length := by rw [length_firstRegs]; omega
  have hword : (s.mem.writeBytes s.base (s.firstRegs x)).readWord (s.i + k.setWidth 16).toNat =
      s.getV k ++ s.getV (k + 1) := by
    rw [hpc]
    refine (Memory.readWord_writeBytes s.mem s.base k.toNat hlength).trans ?_
    simp only [← hnext, getElem_firstRegs, wordOfBytes]
  exact ⟨_, exec_of_completes hcompletes, fetchWord_eq_some.mpr ⟨by rw [hpc]; omega, hword.symm⟩⟩

end Sys2Proof.Machine

/-! PROOFS. Encoding: the decoder and the encoder are inverse to each other, the unknown words and the rows of the opcode
table are those of the spec (30_encoding.md R58 to R69), and SYS, which group 0 decodes to, does nothing (R64, R83). -/

namespace Sys2Proof

variable {w : Word} {i : Instr}

/-! ## Decoding an encoding -/

theorem decodeGroup0_encodeNnn {nnn : Addr} (h : (Instr.sys nnn).wellFormed = true) :
    decodeGroup0 (encodeNnn 0x0#4 nnn) = .sys nnn := by
  simp only [Instr.wellFormed, Bool.and_eq_true, bne_iff_ne] at h
  obtain ⟨hcls, hret⟩ := h
  have hcls' : encodeNnn 0x0#4 nnn ≠ 0x00E0#16 := fun e => hcls (Laws.encodeNnn_injective (b := 0x0E0#12) e)
  have hret' : encodeNnn 0x0#4 nnn ≠ 0x00EE#16 := fun e => hret (Laws.encodeNnn_injective (b := 0x0EE#12) e)
  rw [decodeGroup0, if_neg hcls', if_neg hret', nnnField_encodeNnn]

theorem decodeWord_encodeWord (h : i.wellFormed = true) : decodeWord (encodeWord i) = .ok i := by
  cases i with
  | cls | ret => rfl
  | sys nnn => simp [decodeWord, encodeWord, decodeGroup0_encodeNnn h]
  | jp | call | ldI | jpV0 | seImm | sneImm | ldImm | addImm | rnd | seReg | sneReg | drw =>
    simp [decodeWord, encodeWord]
  | ldReg | orReg | andReg | xorReg | addReg | subReg | shr | subn | shl =>
    simp [decodeWord, encodeWord, decodeGroup8]
  | skp | sknp => simp [decodeWord, encodeWord, decodeGroupE]
  | ldVxDt | ldVxK | ldDtVx | ldStVx | addI | ldF | ldB | storeRegs | loadRegs =>
    simp [decodeWord, encodeWord, decodeGroupF]

/-- Settles O1: the two bytes are put together to the word, and the word decodes to the instruction. -/
theorem decodeInvertsEncode : Obligations.DecodeInvertsEncode := by
  intro i rest h
  rw [encode, decode_bytesOfWord, decodeWord_encodeWord h]
  rfl

/-! ## Encoding what was decoded -/

section Fields

variable {op n : Nibble} {nn : Byte}

theorem encodeNnn_of_opField (h : opField w = op) : encodeNnn op (nnnField w) = w := by
  rw [← h, encodeNnn_fields]

theorem encodeXnn_of_opField (h : opField w = op) : encodeXnn op (xField w) (nnField w) = w := by
  rw [← h, encodeXnn_fields]

theorem encodeXnn_of_opField_nnField (h : opField w = op) (hnn : nnField w = nn) : encodeXnn op (xField w) nn = w := by
  rw [← hnn, encodeXnn_of_opField h]

theorem encodeXyn_of_opField (h : opField w = op) : encodeXyn op (xField w) (yField w) (nField w) = w := by
  rw [← h, encodeXyn_fields]

theorem encodeXyn_of_opField_nField (h : opField w = op) (hn : nField w = n) :
    encodeXyn op (xField w) (yField w) n = w := by
  rw [← hn, encodeXyn_of_opField h]

end Fields

theorem wellFormed_sys_nnnField (hop : opField w = 0x0#4) (hcls : w ≠ 0x00E0#16) (hret : w ≠ 0x00EE#16) :
    (Instr.sys (nnnField w)).wellFormed = true := by
  have hw : encodeNnn 0x0#4 (nnnField w) = w := encodeNnn_of_opField hop
  simp only [Instr.wellFormed, Bool.and_eq_true, bne_iff_ne]
  exact ⟨fun h => hcls (by rw [← hw, h]; rfl), fun h => hret (by rw [← hw, h]; rfl)⟩

theorem decodeGroup0_sound (hop : opField w = 0x0#4) :
    (decodeGroup0 w).wellFormed = true ∧ encodeWord (decodeGroup0 w) = w := by
  unfold decodeGroup0
  split_ifs with hcls hret
  · exact ⟨rfl, hcls.symm⟩
  · exact ⟨rfl, hret.symm⟩
  · exact ⟨wellFormed_sys_nnnField hop hcls hret, encodeNnn_of_opField hop⟩

theorem decodeGroup8_sound (hop : opField w = 0x8#4) (h : decodeGroup8 w = .ok i) :
    i.wellFormed = true ∧ encodeWord i = w := by
  unfold decodeGroup8 at h
  split at h
  case h_10 => cases h
  all_goals
    next hn =>
      cases h
      exact ⟨rfl, encodeXyn_of_opField_nField hop (BitVec.eq_of_toNat_eq hn)⟩

theorem decodeGroupE_sound (hop : opField w = 0xE#4) (h : decodeGroupE w = .ok i) :
    i.wellFormed = true ∧ encodeWord i = w := by
  unfold decodeGroupE at h
  split at h
  case h_3 => cases h
  all_goals
    next hnn =>
      cases h
      exact ⟨rfl, encodeXnn_of_opField_nnField hop (BitVec.eq_of_toNat_eq hnn)⟩

theorem decodeGroupF_sound (hop : opField w = 0xF#4) (h : decodeGroupF w = .ok i) :
    i.wellFormed = true ∧ encodeWord i = w := by
  unfold decodeGroupF at h
  split at h
  case h_10 => cases h
  all_goals
    next hnn =>
      cases h
      exact ⟨rfl, encodeXnn_of_opField_nnField hop (BitVec.eq_of_toNat_eq hnn)⟩

theorem opField_eq_F (h : 15 ≤ (opField w).toNat) : opField w = 0xF#4 := by
  bv_omega

/-- What the decoder answers is well-formed, and its encoding is the word. -/
theorem decodeWord_sound (h : decodeWord w = .ok i) : i.wellFormed = true ∧ encodeWord i = w := by
  unfold decodeWord at h
  split at h
  case h_1 hop =>
    cases h
    exact decodeGroup0_sound (BitVec.eq_of_toNat_eq hop)
  case h_2 hop | h_3 hop | h_11 hop | h_12 hop =>
    cases h
    exact ⟨rfl, encodeNnn_of_opField (BitVec.eq_of_toNat_eq hop)⟩
  case h_4 hop | h_5 hop | h_7 hop | h_8 hop | h_13 hop =>
    cases h
    exact ⟨rfl, encodeXnn_of_opField (BitVec.eq_of_toNat_eq hop)⟩
  case h_6 hop | h_10 hop =>
    split_ifs at h with hn
    cases h
    exact ⟨rfl, encodeXyn_of_opField_nField (BitVec.eq_of_toNat_eq hop) hn⟩
  case h_14 hop =>
    cases h
    exact ⟨rfl, encodeXyn_of_opField (BitVec.eq_of_toNat_eq hop)⟩
  case h_9 hop => exact decodeGroup8_sound (BitVec.eq_of_toNat_eq hop) h
  case h_15 hop => exact decodeGroupE_sound (BitVec.eq_of_toNat_eq hop) h
  case h_16 =>
    have hop : opField w = 0xF#4 := opField_eq_F (by simp only [imp_false] at *; omega)
    exact decodeGroupF_sound hop h

/-- The decoder accepts exactly the words of well-formed instructions. -/
theorem decodeWord_eq_ok_iff : decodeWord w = .ok i ↔ i.wellFormed = true ∧ encodeWord i = w := by
  refine ⟨decodeWord_sound, ?_⟩
  rintro ⟨hwf, rfl⟩
  exact decodeWord_encodeWord hwf

/-- Settles O2: two bytes are accepted when their word is, and the word is the encoding of the answer. -/
theorem encodeInvertsDecode : Obligations.EncodeInvertsDecode := by
  intro bytes rest i h
  match bytes, h with
  | hi :: lo :: tail, h =>
    cases hd : decodeWord (wordOfBytes hi lo) with
    | error e => simp [decode, hd, Except.map] at h
    | ok j =>
      obtain ⟨hwf, hw⟩ := decodeWord_sound hd
      simp only [decode, hd, Except.map, Except.ok.injEq, Prod.mk.injEq] at h
      obtain ⟨rfl, rfl⟩ := h
      exact ⟨hwf, by rw [encode, hw, bytesOfWord_wordOfBytes]; rfl⟩

/-! ## The unknown words (R63) -/

/-- The words R63 lists under each reason for rejection. -/
def DecodeError.Lists (w : Word) : DecodeError → Prop
  | .unknownGroup5 => opField w = 0x5#4 ∧ nField w ≠ 0#4
  | .unknownGroup8 => opField w = 0x8#4 ∧ nField w ∈ [0x8#4, 0x9#4, 0xA#4, 0xB#4, 0xC#4, 0xD#4, 0xF#4]
  | .unknownGroup9 => opField w = 0x9#4 ∧ nField w ≠ 0#4
  | .unknownGroupE => opField w = 0xE#4 ∧ nnField w ∉ [0x9E#8, 0xA1#8]
  | .unknownGroupF => opField w = 0xF#4 ∧
      nnField w ∉ [0x07#8, 0x0A#8, 0x15#8, 0x18#8, 0x1E#8, 0x29#8, 0x33#8, 0x55#8, 0x65#8]
  | .truncated => False

variable {e : DecodeError}

theorem decodeGroup8_eq_error_iff : decodeGroup8 w = .error e ↔
    e = .unknownGroup8 ∧ nField w ∈ [0x8#4, 0x9#4, 0xA#4, 0xB#4, 0xC#4, 0xD#4, 0xF#4] := by
  unfold decodeGroup8
  split
  case h_10 =>
    have hn : nField w ∈ [0x8#4, 0x9#4, 0xA#4, 0xB#4, 0xC#4, 0xD#4, 0xF#4] := by
      simp only [List.mem_cons, List.not_mem_nil, or_false, ← BitVec.toNat_inj, BitVec.toNat_ofNat]
      simp only [imp_false] at *
      omega
    rw [and_iff_left hn, Except.error.injEq, eq_comm]
  all_goals
    next hn => simp [← BitVec.toNat_inj, hn]

theorem decodeGroupE_eq_error_iff : decodeGroupE w = .error e ↔
    e = .unknownGroupE ∧ nnField w ∉ [0x9E#8, 0xA1#8] := by
  unfold decodeGroupE
  split
  case h_3 =>
    have hnn : nnField w ∉ [0x9E#8, 0xA1#8] := by simp_all [← BitVec.toNat_inj]
    rw [and_iff_left hnn, Except.error.injEq, eq_comm]
  all_goals
    next hnn => simp [← BitVec.toNat_inj, hnn]

theorem decodeGroupF_eq_error_iff : decodeGroupF w = .error e ↔ e = .unknownGroupF ∧
    nnField w ∉ [0x07#8, 0x0A#8, 0x15#8, 0x18#8, 0x1E#8, 0x29#8, 0x33#8, 0x55#8, 0x65#8] := by
  unfold decodeGroupF
  split
  case h_10 =>
    have hnn : nnField w ∉ [0x07#8, 0x0A#8, 0x15#8, 0x18#8, 0x1E#8, 0x29#8, 0x33#8, 0x55#8, 0x65#8] := by
      simp_all [← BitVec.toNat_inj]
    rw [and_iff_left hnn, Except.error.injEq, eq_comm]
  all_goals
    next hnn => simp [← BitVec.toNat_inj, hnn]

theorem decodeWord_of_opField_8 (h : opField w = 0x8#4) : decodeWord w = decodeGroup8 w := by
  simp [decodeWord, h]

theorem decodeWord_of_opField_E (h : opField w = 0xE#4) : decodeWord w = decodeGroupE w := by
  simp [decodeWord, h]

theorem decodeWord_of_opField_F (h : opField w = 0xF#4) : decodeWord w = decodeGroupF w := by
  simp [decodeWord, h]

theorem lists_of_decodeWord_error (h : decodeWord w = .error e) : e.Lists w := by
  unfold decodeWord at h
  split at h
  case h_6 hop | h_10 hop =>
    split_ifs at h with hn
    cases h
    exact ⟨BitVec.eq_of_toNat_eq hop, hn⟩
  case h_9 hop =>
    obtain ⟨rfl, hn⟩ := decodeGroup8_eq_error_iff.mp h
    exact ⟨BitVec.eq_of_toNat_eq hop, hn⟩
  case h_15 hop =>
    obtain ⟨rfl, hnn⟩ := decodeGroupE_eq_error_iff.mp h
    exact ⟨BitVec.eq_of_toNat_eq hop, hnn⟩
  case h_16 =>
    obtain ⟨rfl, hnn⟩ := decodeGroupF_eq_error_iff.mp h
    exact ⟨opField_eq_F (by simp only [imp_false] at *; omega), hnn⟩
  all_goals cases h

theorem decodeWord_error_of_lists (h : e.Lists w) : decodeWord w = .error e := by
  cases e with
  | unknownGroup5 | unknownGroup9 =>
    obtain ⟨hop, hn⟩ := h
    simp [decodeWord, hop, hn]
  | unknownGroup8 =>
    obtain ⟨hop, hn⟩ := h
    rw [decodeWord_of_opField_8 hop, decodeGroup8_eq_error_iff]
    exact ⟨rfl, hn⟩
  | unknownGroupE =>
    obtain ⟨hop, hnn⟩ := h
    rw [decodeWord_of_opField_E hop, decodeGroupE_eq_error_iff]
    exact ⟨rfl, hnn⟩
  | unknownGroupF =>
    obtain ⟨hop, hnn⟩ := h
    rw [decodeWord_of_opField_F hop, decodeGroupF_eq_error_iff]
    exact ⟨rfl, hnn⟩
  | truncated => exact h.elim

theorem decodeWord_eq_error_iff : decodeWord w = .error e ↔ e.Lists w :=
  ⟨lists_of_decodeWord_error, decodeWord_error_of_lists⟩

/-- Settles O3: the words listed under each reason, reason by reason. -/
theorem unknownWordsAreThoseOfR63 : Obligations.UnknownWordsAreThoseOfR63 := by
  intro w
  exact ⟨decodeWord_eq_error_iff, decodeWord_eq_error_iff, decodeWord_eq_error_iff, decodeWord_eq_error_iff,
    decodeWord_eq_error_iff, decodeWord_eq_error_iff.mp⟩

/-! ## The opcode table (R69) -/

theorem OpcodeRow.holds_iff {r : OpcodeRow} : r.holds w = true ↔ w &&& r.mask = r.value ∧ w ∉ r.excluded := by
  simp [OpcodeRow.holds]

/-- The word of a well-formed instruction belongs to the instruction's row. -/
theorem row_holds_encodeWord (h : i.wellFormed = true) : i.row.holds (encodeWord i) = true := by
  revert h
  cases i with
  | cls => exact Laws.EncodesRow.cls
  | ret => exact Laws.EncodesRow.ret
  | sys nnn => exact Laws.EncodesRow.sys nnn
  | jp nnn => exact Laws.EncodesRow.jp nnn
  | call nnn => exact Laws.EncodesRow.call nnn
  | seImm x nn => exact Laws.EncodesRow.seImm x nn
  | sneImm x nn => exact Laws.EncodesRow.sneImm x nn
  | seReg x y => exact Laws.EncodesRow.seReg x y
  | ldImm x nn => exact Laws.EncodesRow.ldImm x nn
  | addImm x nn => exact Laws.EncodesRow.addImm x nn
  | ldReg x y => exact Laws.EncodesRow.ldReg x y
  | orReg x y => exact Laws.EncodesRow.orReg x y
  | andReg x y => exact Laws.EncodesRow.andReg x y
  | xorReg x y => exact Laws.EncodesRow.xorReg x y
  | addReg x y => exact Laws.EncodesRow.addReg x y
  | subReg x y => exact Laws.EncodesRow.subReg x y
  | shr x y => exact Laws.EncodesRow.shr x y
  | subn x y => exact Laws.EncodesRow.subn x y
  | shl x y => exact Laws.EncodesRow.shl x y
  | sneReg x y => exact Laws.EncodesRow.sneReg x y
  | ldI nnn => exact Laws.EncodesRow.ldI nnn
  | jpV0 nnn => exact Laws.EncodesRow.jpV0 nnn
  | rnd x nn => exact Laws.EncodesRow.rnd x nn
  | drw x y n => exact Laws.EncodesRow.drw x y n
  | skp x => exact Laws.EncodesRow.skp x
  | sknp x => exact Laws.EncodesRow.sknp x
  | ldVxDt x => exact Laws.EncodesRow.ldVxDt x
  | ldVxK x => exact Laws.EncodesRow.ldVxK x
  | ldDtVx x => exact Laws.EncodesRow.ldDtVx x
  | ldStVx x => exact Laws.EncodesRow.ldStVx x
  | addI x => exact Laws.EncodesRow.addI x
  | ldF x => exact Laws.EncodesRow.ldF x
  | ldB x => exact Laws.EncodesRow.ldB x
  | storeRegs x => exact Laws.EncodesRow.storeRegs x
  | loadRegs x => exact Laws.EncodesRow.loadRegs x

/-- The instruction of the same row whose operands are the word's fields. -/
def Instr.withFields (w : Word) : Instr → Instr
  | .cls => .cls
  | .ret => .ret
  | .sys _ => .sys (nnnField w)
  | .jp _ => .jp (nnnField w)
  | .call _ => .call (nnnField w)
  | .seImm _ _ => .seImm (xField w) (nnField w)
  | .sneImm _ _ => .sneImm (xField w) (nnField w)
  | .seReg _ _ => .seReg (xField w) (yField w)
  | .ldImm _ _ => .ldImm (xField w) (nnField w)
  | .addImm _ _ => .addImm (xField w) (nnField w)
  | .ldReg _ _ => .ldReg (xField w) (yField w)
  | .orReg _ _ => .orReg (xField w) (yField w)
  | .andReg _ _ => .andReg (xField w) (yField w)
  | .xorReg _ _ => .xorReg (xField w) (yField w)
  | .addReg _ _ => .addReg (xField w) (yField w)
  | .subReg _ _ => .subReg (xField w) (yField w)
  | .shr _ _ => .shr (xField w) (yField w)
  | .subn _ _ => .subn (xField w) (yField w)
  | .shl _ _ => .shl (xField w) (yField w)
  | .sneReg _ _ => .sneReg (xField w) (yField w)
  | .ldI _ => .ldI (nnnField w)
  | .jpV0 _ => .jpV0 (nnnField w)
  | .rnd _ _ => .rnd (xField w) (nnField w)
  | .drw _ _ _ => .drw (xField w) (yField w) (nField w)
  | .skp _ => .skp (xField w)
  | .sknp _ => .sknp (xField w)
  | .ldVxDt _ => .ldVxDt (xField w)
  | .ldVxK _ => .ldVxK (xField w)
  | .ldDtVx _ => .ldDtVx (xField w)
  | .ldStVx _ => .ldStVx (xField w)
  | .addI _ => .addI (xField w)
  | .ldF _ => .ldF (xField w)
  | .ldB _ => .ldB (xField w)
  | .storeRegs _ => .storeRegs (xField w)
  | .loadRegs _ => .loadRegs (xField w)

@[simp] theorem row_withFields (w : Word) (i : Instr) : (i.withFields w).row = i.row := by
  cases i <;> rfl

section Masks

variable {op n : Nibble} {nn : Byte}

theorem opField_of_mask_op (h : w &&& 0xF000#16 = encodeNnn op 0) : opField w = op := by
  rw [← encodeNnn_fields w, Laws.encodeNnn_mask_op] at h
  simpa using congrArg opField h

theorem encodeXyn_of_mask_opN (h : w &&& 0xF00F#16 = encodeXyn op 0 0 n) :
    encodeXyn op (xField w) (yField w) n = w := by
  rw [← encodeXyn_fields w, Laws.encodeXyn_mask_opN] at h
  exact encodeXyn_of_opField_nField (by simpa using congrArg opField h) (by simpa using congrArg nField h)

theorem encodeXnn_of_mask_opNn (h : w &&& 0xF0FF#16 = encodeXnn op 0 nn) : encodeXnn op (xField w) nn = w := by
  rw [← encodeXnn_fields w, Laws.encodeXnn_mask_opNn] at h
  exact encodeXnn_of_opField_nnField (by simpa using congrArg opField h) (by simpa using congrArg nnField h)

end Masks

/-- A word of a row is the encoding of the row's instruction with the word's fields. -/
theorem encodeWord_withFields (h : i.row.holds w = true) :
    (i.withFields w).wellFormed = true ∧ encodeWord (i.withFields w) = w := by
  obtain ⟨hmask, hexcluded⟩ := OpcodeRow.holds_iff.mp h
  cases i with
  | cls | ret => exact ⟨rfl, hmask.symm.trans BitVec.and_allOnes⟩
  | sys nnn =>
    have hop : opField w = 0x0#4 := opField_of_mask_op hmask
    simp only [Instr.row, List.mem_cons, List.not_mem_nil, or_false, not_or] at hexcluded
    obtain ⟨hcls, hret⟩ := hexcluded
    exact ⟨wellFormed_sys_nnnField hop hcls hret, encodeNnn_of_opField hop⟩
  | jp | call | ldI | jpV0 => exact ⟨rfl, encodeNnn_of_opField (opField_of_mask_op hmask)⟩
  | seImm | sneImm | ldImm | addImm | rnd => exact ⟨rfl, encodeXnn_of_opField (opField_of_mask_op hmask)⟩
  | drw => exact ⟨rfl, encodeXyn_of_opField (opField_of_mask_op hmask)⟩
  | seReg | sneReg | ldReg | orReg | andReg | xorReg | addReg | subReg | shr | subn | shl =>
    exact ⟨rfl, encodeXyn_of_mask_opN hmask⟩
  | skp | sknp | ldVxDt | ldVxK | ldDtVx | ldStVx | addI | ldF | ldB | storeRegs | loadRegs =>
    exact ⟨rfl, encodeXnn_of_mask_opNn hmask⟩

/-- Settles O4: a word of a row is the encoding of an instruction of the row, and what a word decodes to encodes to a word
of its row. -/
theorem decodeFollowsOpcodeTable : Obligations.DecodeFollowsOpcodeTable := by
  intro w j
  rw [← OpcodeRow.holds_iff]
  constructor
  · intro h
    exact ⟨j.withFields w, decodeWord_eq_ok_iff.mpr (encodeWord_withFields h), row_withFields w j⟩
  · rintro ⟨i, hdecode, hrow⟩
    obtain ⟨hwf, rfl⟩ := decodeWord_sound hdecode
    rw [← hrow]
    exact row_holds_encodeWord hwf

/-- Settles O5: the words are closed, so the decoder computes each answer. -/
theorem sampleWordsDecode : Obligations.SampleWordsDecode := by
  unfold Obligations.SampleWordsDecode
  decide

end Sys2Proof

namespace Sys2Proof.Machine

/-- Settles O25: SYS completes with the state it was given. -/
theorem sysDoesNothing : Obligations.SysDoesNothing := by
  intro nnn s
  exact ⟨s.setRun .running, exec_of_completes rfl, rfl, frame_setRun s .running⟩

end Sys2Proof.Machine

/-! PROOFS. The instruction cycle: the ways a step goes (R70 to R76), FX0A, and the invariant of R79 at reset and over a
step. -/

namespace Sys2Proof.Machine

variable {s : State}

/-! ## Steps of a running and of a halted block (R70 to R76) -/

/-- A fetch in range reads the two bytes at PC, the high byte first (R46, R71). -/
theorem fetchWord_of_pc_le (hpc : s.pc.toNat ≤ 0xFFE) :
    fetchWord s = some (s.mem.read s.pc.toNat ++ s.mem.read (s.pc.toNat + 1)) :=
  fetchWord_eq_some.mpr ⟨hpc, rfl⟩

/-- Settles O6: the word at PC is the one fetched, so the instruction is the next one. -/
theorem stepRunsDecodedInstruction : Obligations.StepRunsDecodedInstruction := by
  intro s i hrun hpc hdecode
  exact step_of_nextInstr ⟨hrun, _, fetchWord_of_pc_le hpc, hdecode⟩

/-- Settles O8: the step raises DecodeFault at PC = P + 2, and the mode decides whether the fault halts. -/
theorem unknownOpcodeIsSkippedOrHalts : Obligations.UnknownOpcodeIsSkippedOrHalts := by
  rintro s w e hrun hpc rfl hdecode
  rw [step_of_unknown hrun (fetchWord_of_pc_le hpc) hdecode]
  refine ⟨fun hlenient => ?_, fun hstrict => ?_⟩
  · exact congrArg _ (State.afterFault_of_ignored (k := .decodeFault) _ hlenient)
  · have hback : s.advance.pc - 2#16 = s.pc := BitVec.add_sub_cancel s.pc 2#16
    rw [State.afterFault_of_halts (s := s.advance) (k := .decodeFault) _ hstrict, hback]
    rfl

/-- Settles O10: the byte a STEP offers is taken back unread. -/
theorem haltedStepChangesNothing : Obligations.HaltedStepChangesNothing := by
  intro s r hhalted
  have hoffered : step { s with offered := [r] } = .next { s with offered := [r] } := step_of_halted hhalted
  exact ⟨step_of_halted hhalted, stepWith_of_next (t := { s with offered := [r] }) hoffered⟩

/-! ## FX0A (R75, R121) -/

theorem lowestPressed_of_key {k : Nibble} (hdown : s.key k = true)
    (hlowest : ∀ j : Nibble, j.toNat < k.toNat → s.key j = false) : s.lowestPressed = some k.toNat := by
  refine State.lowestPressed_eq_some.mpr ⟨k.isLt, hdown, fun j hj => ?_⟩
  have hj16 : j < 16 := hj.trans k.isLt
  exact hlowest (BitVec.ofNatLT j hj16) hj

theorem exec_ldVxK_of_key {x k : Nibble} (h : s.lowestPressed = some k.toNat) :
    exec (.ldVxK x) s = .next ((s.setV x (k.setWidth 8)).setRun .running) := by
  have hcompletes : (Instr.ldVxK x).ending s = .completes := by simp [Instr.ending, h]
  rw [exec_of_completes hcompletes]
  simp [Instr.effect, h]

theorem exec_ldVxK_of_no_key {x : Nibble} (h : ∀ k, s.key k = false) :
    exec (.ldVxK x) s = .next ({ s with pc := s.pc - 2#16 }.setRun .awaitingKey) :=
  exec_of_waits (by simp [Instr.ending, State.lowestPressed_eq_none.mpr h])

/-- Settles O49: FX0A completes with the lowest key down, and waits when none is. -/
theorem waitForKey : Obligations.WaitForKey := by
  intro x s
  refine ⟨fun k hdown hlowest => ?_, fun hup => ?_⟩
  · refine ⟨_, exec_ldVxK_of_key (lowestPressed_of_key hdown hlowest), ?_, rfl, ?_⟩
    · have hv : ((s.setV x (k.setWidth 8)).setRun .running).getV x = k.setWidth 8 :=
        (State.getV_setV s x x _).trans (if_pos rfl)
      rw [hv]
      exact BitVec.toNat_setWidth_of_le (by decide)
    · exact ((frame_setV s x _).mono fun _ hp => .inl hp).trans ((frame_setRun _ _).mono fun _ hp => .inr hp)
  · refine ⟨_, exec_ldVxK_of_no_key hup, rfl, rfl, ?_⟩
    exact ((frame_pc s _).mono fun _ hp => .inl hp).trans ((frame_setRun _ _).mono fun _ hp => .inr hp)

/-! ## The invariant of R79 -/

/-- The default font is what unlisted addresses read as, so RESET lists none of it (log 1). -/
theorem Memory.ofFont_fontRom : Memory.ofFont Config.fontRom = [] := by decide

theorem resetWith_defaults : State.resetWith Config.fontRom Cfg.default = State.reset := by
  rw [State.resetWith, Memory.ofFont_fontRom]
  rfl

/-- Settles O13: the reset state is a RESET with the defaults, and every RESET meets the invariant. -/
theorem resetMeetsInvariant : Obligations.ResetMeetsInvariant :=
  ⟨resetWith_defaults ▸ resetWith_inv Config.fontRom Cfg.default, resetWith_defaults⟩

/-- Settles O14: a halt, a fetch fault and an unknown word leave SP, the stack and memory alone, and an instruction keeps the
invariant from the PC its fetch leaves. -/
theorem stepKeepsInvariant : Obligations.StepKeepsInvariant :=
  fun _ _ hinv hstep => step_inv hinv hstep

end Sys2Proof.Machine

/-! PROOFS. Control transfer and skips (R80 to R91): the state each jump, skip, RET and CALL completes with, its frame,
the two stack faults, and a CALL with the RET at its target. -/

namespace Sys2Proof.Machine

variable {i : Instr} {s : State}

/-! ## Frames of the return stack and of a completed instruction -/

theorem frame_push (s : State) (w : Word) (h : s.sp.toNat < 16) :
    FrameExcept (fun p => p = .slot ⟨s.sp.toNat, h⟩ ∨ p = .sp) s (s.push w h) := by
  intro p hp
  cases p with
  | slot j =>
    have hj : s.sp.toNat ≠ j.val := fun e => hp (.inl (congrArg Part.slot (Fin.ext e.symm)))
    exact Vector.getElem_set_ne h j.isLt hj
  | sp => exact absurd (.inr rfl) hp
  | _ => simp [Part.same, State.getV, State.key]

theorem frame_popPc (s : State) (h : s.sp.toNat - 1 < 16) :
    FrameExcept (fun p => p = .sp ∨ p = .pc) s (s.popPc h) := by
  intro p hp
  cases p with
  | sp => exact absurd (.inl rfl) hp
  | pc => exact absurd (.inr rfl) hp
  | _ => simp [Part.same, State.getV, State.key]

/-- Changes one after the other: together they change no more than either names. -/
theorem FrameExcept.trans_or {c c' : Part → Prop} {s t u : State} (h : FrameExcept c s t) (h' : FrameExcept c' t u) :
    FrameExcept (fun p => c p ∨ c' p) s u :=
  (h.mono fun _ => .inl).trans (h'.mono fun _ => .inr)

/-- A part that a frame gives up and that ends as it was is kept. -/
theorem FrameExcept.of_restored {c c' : Part → Prop} {s t : State} (h : FrameExcept c s t)
    (hc : ∀ p, c p → c' p ∨ p.same s t) : FrameExcept c' s t := by
  intro p hp
  by_cases hcp : c p
  · exact (hc p hcp).resolve_left hp
  · exact h p hcp

/-- An instruction that completes with only PC written keeps everything but PC and RUN. -/
theorem exec_of_effect_pc {pc : Word} (hend : i.ending s = .completes) (heff : i.effect s = { s with pc := pc }) :
    ∃ t, exec i s = .next t ∧ t.pc = pc ∧ t.status.run = .running ∧
      FrameExcept (fun p => p = .pc ∨ p = .run) s t := by
  refine ⟨{ s with pc := pc }.setRun .running, ?_, rfl, rfl, (frame_pc s pc).trans_or (frame_setRun _ _)⟩
  rw [exec_of_completes hend, heff]

/-! ## Jumps (R84, R91) -/

/-- Settles O26: JP completes with its address, zero-extended, in PC. -/
theorem jpWritesAddress : Obligations.JpWritesAddress := by
  intro nnn s
  obtain ⟨t, hexec, hpc, hrest⟩ := exec_of_effect_pc (i := .jp nnn) (s := s) rfl rfl
  exact ⟨decodeWord_encodeWord (i := .jp nnn) rfl, t, hexec, hpc ▸ zext16_toNat nnn, hrest⟩

/-- Settles O30: the sum of a 12-bit address and a byte fits in 16 bits. -/
theorem jpV0AddsV0 : Obligations.JpV0AddsV0 := by
  intro nnn s
  obtain ⟨t, hexec, hpc, hrest⟩ := exec_of_effect_pc (i := .jpV0 nnn) (s := s) rfl rfl
  exact ⟨t, hexec, hpc ▸ jumpV0Target_toNat s nnn, hrest⟩

/-! ## Compare and skip (R81, R87 to R90) -/

/-- A completing instruction with the effect of a skip adds 2 to PC where it is taken (`yes`) and keeps PC where it is
not (`no`). -/
theorem exec_of_effect_skip {yes no : Prop} (hyes : i.skipTaken s = true ↔ yes) (hno : i.skipTaken s = false ↔ no)
    (hend : i.ending s = .completes)
    (heff : i.effect s = { s with pc := if i.skipTaken s then s.pc + 2#16 else s.pc }) :
    ∃ t, exec i s = .next t ∧ (yes → t.pc = s.pc + 2) ∧ (no → t.pc = s.pc) ∧
      t.status.run = .running ∧ FrameExcept (fun p => p = .pc ∨ p = .run) s t := by
  obtain ⟨t, hexec, hpc, hrest⟩ := exec_of_effect_pc hend heff
  refine ⟨t, hexec, fun h => ?_, fun h => ?_, hrest⟩
  · rw [hpc, if_pos (hyes.mpr h)]
    rfl
  · rw [hpc, hno.mpr h]
    rfl

/-- 5XYn and 9XYn with n other than 0 are unknown (R63). -/
theorem decodeWord_encodeXyn_unknown (x y : Nibble) {n : Nibble} (hn : n ≠ 0#4) :
    decodeWord (encodeXyn 0x5#4 x y n) = .error .unknownGroup5 ∧
    decodeWord (encodeXyn 0x9#4 x y n) = .error .unknownGroup9 := by
  constructor
  all_goals exact decodeWord_error_of_lists ⟨opField_encodeXyn _ x y n, (nField_encodeXyn _ x y n).symm ▸ hn⟩

/-- Settles O29: the four instructions are skips, each taken on its own comparison. -/
theorem compareSkips : Obligations.CompareSkips := by
  intro x y nn s
  refine ⟨decodeWord_encodeWord (i := .seImm x nn) rfl, decodeWord_encodeWord (i := .sneImm x nn) rfl,
    decodeWord_encodeWord (i := .seReg x y) rfl, decodeWord_encodeWord (i := .sneReg x y) rfl,
    fun _ hn => decodeWord_encodeXyn_unknown x y hn, ?_, ?_, ?_, ?_⟩
  · exact exec_of_effect_skip (i := .seImm x nn) beq_iff_eq beq_eq_false_iff_ne rfl rfl
  · exact exec_of_effect_skip (i := .sneImm x nn) bne_iff_ne bne_eq_false_iff_eq rfl rfl
  · exact exec_of_effect_skip (i := .seReg x y) beq_iff_eq beq_eq_false_iff_ne rfl rfl
  · exact exec_of_effect_skip (i := .sneReg x y) bne_iff_ne bne_eq_false_iff_eq rfl rfl

/-! ## RET and CALL (R82, R85) -/

theorem exec_ret_of_sp_pos (h : s.sp.toNat - 1 < 16) (hpos : 0 < s.sp.toNat) :
    exec .ret s = .next ((s.popPc h).setRun .running) := by
  have hsp : s.sp ≠ 0#8 := by bv_omega
  rw [exec, execRet, if_neg hsp, dif_pos h, complete_eq]

/-- The state a CALL completes with: PC pushed and the target in PC (R85). -/
def State.afterCall (s : State) (nnn : Addr) (h : s.sp.toNat < 16) : State :=
  { s.push s.pc h with pc := zext16 nnn }.setRun .running

theorem exec_call_of_sp_lt {nnn : Addr} (h : s.sp.toNat < 16) :
    exec (.call nnn) s = .next (s.afterCall nnn h) := by
  have hsp : s.sp ≠ 16#8 := by bv_omega
  rw [exec, execCall, if_neg hsp, dif_pos h, complete_eq, State.afterCall]

theorem sp_afterCall_toNat (s : State) (nnn : Addr) (h : s.sp.toNat < 16) :
    (s.afterCall nnn h).sp.toNat = s.sp.toNat + 1 := by
  have hsp : (s.afterCall nnn h).sp = s.sp + 1#8 := rfl
  bv_omega

theorem sp_popPc_toNat (h : s.sp.toNat - 1 < 16) (hpos : 0 < s.sp.toNat) : (s.popPc h).sp.toNat = s.sp.toNat - 1 := by
  rw [State.popPc_sp]
  bv_omega

/-- A fault whose kind halts in this mode leaves the halted state of R127. -/
theorem exec_of_raises_of_halts {kind : FaultKind} (hend : i.ending s = .raises kind)
    (hhalts : kind.halts s.cfg.strict = true) :
    exec i s = .next (s.halt kind false (s.pc - 2#16) (encodeWord i)) := by
  rw [exec_of_raises hend, State.afterFault_of_halts _ hhalts]

theorem frame_ret (s : State) (h : s.sp.toNat - 1 < 16) :
    FrameExcept (fun p => p = .sp ∨ p = .pc ∨ p = .run) s ((s.popPc h).setRun .running) :=
  ((frame_popPc s h).trans_or (frame_setRun _ _)).mono fun _ => or_assoc.mp

theorem frame_call (s : State) (nnn : Addr) (h : s.sp.toNat < 16) :
    FrameExcept (fun p => p = .slot ⟨s.sp.toNat, h⟩ ∨ p = .sp ∨ p = .pc ∨ p = .run) s (s.afterCall nnn h) :=
  ((frame_push s s.pc h).trans_or ((frame_pc _ _).trans_or (frame_setRun _ _))).mono fun _ => or_assoc.mp

/-- Settles O24: RET pops where SP is above 0, and raises a fault that halts in both modes where it is 0. -/
theorem retPopsOrUnderflows : Obligations.RetPopsOrUnderflows := by
  refine ⟨rfl, fun s h hpos => ⟨_, exec_ret_of_sp_pos h hpos, sp_popPc_toNat h hpos, rfl, rfl, frame_ret s h⟩,
    fun s hsp => ?_⟩
  have hzero : s.sp = 0#8 := BitVec.eq_of_toNat_eq hsp
  exact exec_of_raises_of_halts (i := .ret) (kind := .stackUnderflow) (if_pos hzero) rfl

/-- Settles O27: CALL pushes PC where SP names a slot, and raises a fault that halts in both modes where it is 16. -/
theorem callPushesOrOverflows : Obligations.CallPushesOrOverflows := by
  intro nnn s
  refine ⟨decodeWord_encodeWord (i := .call nnn) rfl, fun h => ?_, fun hsp => ?_⟩
  · exact ⟨_, exec_call_of_sp_lt h, Vector.getElem_set_self h, sp_afterCall_toNat s nnn h, zext16_toNat nnn, rfl,
      frame_call s nnn h⟩
  · have hfull : s.sp = 16#8 := BitVec.eq_of_toNat_eq hsp
    exact exec_of_raises_of_halts (i := .call nnn) (kind := .stackOverflow) (if_pos hfull) rfl

/-! ## A CALL and the RET at its target (R86) -/

/-- The word 0x00EE at PC makes RET the next instruction. -/
theorem nextInstr_ret (hrun : s.status.run ≠ .halted) (hpc : s.pc.toNat ≤ 0xFFE)
    (hhi : s.mem.read s.pc.toNat = 0x00) (hlo : s.mem.read (s.pc.toNat + 1) = 0xEE) : s.nextInstr .ret := by
  refine ⟨hrun, _, fetchWord_of_pc_le hpc, ?_⟩
  rw [hhi, hlo]
  rfl

/-- After a CALL the slot below SP holds the return address, and the CALL has raised SP by one. -/
theorem stack_top_afterCall (s : State) (nnn : Addr) (h : s.sp.toNat < 16) :
    ∃ h' : (s.afterCall nnn h).sp.toNat - 1 < 16, 0 < (s.afterCall nnn h).sp.toNat ∧
      (s.afterCall nnn h).stack[(s.afterCall nnn h).sp.toNat - 1]'h' = s.pc := by
  have hsp := sp_afterCall_toNat s nnn h
  refine ⟨by omega, by omega, ?_⟩
  simp only [hsp, Nat.add_sub_cancel]
  exact Vector.getElem_set_self h

/-- Settles O28: the CALL pushes P + 2 and jumps, the word it jumps to is RET, and the RET pops P + 2 and brings SP back;
the frames of the two chain. -/
theorem callThenRetReturns : Obligations.CallThenRetReturns := by
  intro s a hcall ha hhi hlo hsp
  have hpc : (s.advance.afterCall a hsp).pc.toNat = a.toNat := zext16_toNat a
  have hret : (s.advance.afterCall a hsp).nextInstr .ret := nextInstr_ret nofun (hpc ▸ ha) (hpc ▸ hhi) (hpc ▸ hlo)
  obtain ⟨hpop, hpos, htop⟩ := stack_top_afterCall s.advance a hsp
  have hcallStep : step s = .next (s.advance.afterCall a hsp) :=
    (step_of_nextInstr hcall).trans (exec_call_of_sp_lt (s := s.advance) hsp)
  have hretStep := (step_of_nextInstr hret).trans
    (exec_ret_of_sp_pos (s := (s.advance.afterCall a hsp).advance) hpop hpos)
  have hback : s.sp + 1#8 - 1#8 = s.sp := BitVec.add_sub_cancel s.sp 1#8
  refine ⟨_, _, hcallStep, hretStep, htop, hback, ?_⟩
  have hframes := ((frame_pc s _).trans_or (frame_call s.advance a hsp)).trans_or
    ((frame_pc (s.advance.afterCall a hsp) _).trans_or (frame_ret _ hpop))
  refine hframes.of_restored fun p hp => ?_
  by_cases hpart : p = .sp
  · subst hpart
    exact .inr hback
  · left
    tauto

end Sys2Proof.Machine

/-! PROOFS. Register arithmetic and logic (R92 to R104): the 8-bit results and flags as naturals, the two shapes of
register write, and the instructions that use them. -/

namespace Sys2Proof.Machine

variable {i : Instr} {s : State}

/-! ## Results and flags as naturals (R92) -/

theorem addResult_toNat (a b : Byte) : (addResult a b).toNat = (a.toNat + b.toNat) % 256 :=
  BitVec.toNat_ofNat _ _

theorem subResult_toNat (a b : Byte) : (subResult a b).toNat = (a.toNat + 256 - b.toNat) % 256 := by
  rw [subResult, BitVec.toNat_ofInt]
  omega

theorem shrResult_toNat (a : Byte) : (shrResult a).toNat = a.toNat / 2 := by
  rw [shrResult, BitVec.toNat_ushiftRight, Nat.shiftRight_one]

theorem shlResult_toNat (a : Byte) : (shlResult a).toNat = a.toNat * 2 % 256 := by
  rw [shlResult, BitVec.toNat_shiftLeft, Nat.shiftLeft_eq, pow_one]

theorem flagByte_decide (p : Prop) [Decidable p] : flagByte (decide p) = if p then 1 else 0 := by
  by_cases h : p <;> simp [flagByte, h]

/-- A bit of a byte as VF holds it. -/
theorem flagByte_getLsbD_toNat (a : Byte) (k : Nat) : (flagByte (a.getLsbD k)).toNat = a.toNat / 2 ^ k % 2 := by
  rw [← Nat.toNat_testBit, BitVec.testBit_toNat]
  cases a.getLsbD k <;> rfl

theorem shrFlag_toNat (a : Byte) : (shrFlag a).toNat = a.toNat % 2 := by
  rw [shrFlag, flagByte_getLsbD_toNat, pow_zero, Nat.div_one]

theorem shlFlag_toNat (a : Byte) : (shlFlag a).toNat = a.toNat / 128 := by
  rw [shlFlag, flagByte_getLsbD_toNat]
  omega

/-! ## The two shapes of register write -/

/-- An instruction that completes with one register written keeps everything but that register and RUN. -/
theorem exec_of_effect_setV {x : Nibble} {b : Byte} (hend : i.ending s = .completes) (heff : i.effect s = s.setV x b) :
    ∃ t, exec i s = .next t ∧ t.getV x = b ∧ t.status.run = .running ∧
      FrameExcept (fun p => p = .v x ∨ p = .run) s t := by
  refine ⟨(s.setV x b).setRun .running, ?_, ?_, rfl, (frame_setV s x b).trans_or (frame_setRun _ _)⟩
  · rw [exec_of_completes hend, heff]
  · exact (State.getV_setV s x x b).trans (if_pos rfl)

theorem frame_setVThenFlag (s : State) (x : Nibble) (a f : Byte) :
    FrameExcept (fun p => p = .v x ∨ p = .v 0xF#4) s (s.setVThenFlag x a f) :=
  (frame_setV s x a).trans_or (frame_setV _ flagReg f)

/-- An instruction that completes with a result and then a flag written ends with the flag in VF, and with the result in
its register when that is not VF (R93, D9). -/
theorem exec_of_effect_setVThenFlag {x : Nibble} {a f : Byte} (hend : i.ending s = .completes)
    (heff : i.effect s = s.setVThenFlag x a f) :
    ∃ t, exec i s = .next t ∧ (x ≠ 0xF#4 → t.getV x = a) ∧ t.getV 0xF#4 = f ∧ t.status.run = .running ∧
      FrameExcept (fun p => p = .v x ∨ p = .v 0xF#4 ∨ p = .run) s t := by
  have hframe := (frame_setVThenFlag s x a f).trans_or (frame_setRun _ .running)
  refine ⟨(s.setVThenFlag x a f).setRun .running, ?_, fun hx => ?_, ?_, rfl, hframe.mono fun _ => or_assoc.mp⟩
  · rw [exec_of_completes hend, heff]
  · exact (State.getV_setVThenFlag s x x a f).trans ((if_neg hx).trans (if_pos rfl))
  · exact (State.getV_setVThenFlag s x 0xF#4 a f).trans (if_pos rfl)

/-! ## Loads, immediate add and logic (R94 to R99) -/

/-- Settles O31: each of the three writes the one register; the immediate add is the sum of R92. -/
theorem loadsAndImmediateAdd : Obligations.LoadsAndImmediateAdd := by
  intro x y nn s
  refine ⟨decodeWord_encodeWord (i := .ldImm x nn) rfl, decodeWord_encodeWord (i := .addImm x nn) rfl,
    decodeWord_encodeWord (i := .ldReg x y) rfl, ?_, ?_, ?_⟩
  · exact exec_of_effect_setV (i := .ldImm x nn) rfl rfl
  · obtain ⟨t, hexec, hv, hrest⟩ := exec_of_effect_setV (i := .addImm x nn) (s := s) rfl rfl
    exact ⟨t, hexec, hv ▸ addResult_toNat _ _, hrest⟩
  · exact exec_of_effect_setV (i := .ldReg x y) rfl rfl

/-- Settles O32: each of the three writes the one register, with the bitwise operation of its operands. -/
theorem logicWritesOnlyVx : Obligations.LogicWritesOnlyVx := by
  intro x y s
  refine ⟨?_, ?_, ?_⟩
  · obtain ⟨t, hexec, hv, hrest⟩ := exec_of_effect_setV (i := .orReg x y) (s := s) rfl rfl
    exact ⟨t, hexec, fun _ _ => hv ▸ BitVec.getLsbD_or, hrest⟩
  · obtain ⟨t, hexec, hv, hrest⟩ := exec_of_effect_setV (i := .andReg x y) (s := s) rfl rfl
    exact ⟨t, hexec, fun _ _ => hv ▸ BitVec.getLsbD_and, hrest⟩
  · obtain ⟨t, hexec, hv, hrest⟩ := exec_of_effect_setV (i := .xorReg x y) (s := s) rfl rfl
    exact ⟨t, hexec, fun _ _ => hv ▸ BitVec.getLsbD_xor, hrest⟩

/-! ## Arithmetic with a flag (R100 to R104) -/

/-- Settles O33: the sum and the carry are those of R92, both of the operands before the writes. -/
theorem addSetsCarryLast : Obligations.AddSetsCarryLast := by
  intro x y s
  obtain ⟨t, hexec, hv, hflag, hrest⟩ := exec_of_effect_setVThenFlag (i := .addReg x y) (s := s) rfl rfl
  exact ⟨decodeWord_encodeWord (i := .addReg x y) rfl, t, hexec, fun hx => hv hx ▸ addResult_toNat _ _,
    hflag.trans (flagByte_decide _), hrest⟩

/-- Settles O34: SUB and SUBN are the subtraction of R92 with the operands in either order. -/
theorem subtractSetsNotBorrowLast : Obligations.SubtractSetsNotBorrowLast := by
  intro x y s
  constructor
  · obtain ⟨t, hexec, hv, hflag, hrest⟩ := exec_of_effect_setVThenFlag (i := .subReg x y) (s := s) rfl rfl
    exact ⟨t, hexec, fun hx => hv hx ▸ subResult_toNat _ _, hflag.trans (flagByte_decide _), hrest⟩
  · obtain ⟨t, hexec, hv, hflag, hrest⟩ := exec_of_effect_setVThenFlag (i := .subn x y) (s := s) rfl rfl
    exact ⟨t, hexec, fun hx => hv hx ▸ subResult_toNat _ _, hflag.trans (flagByte_decide _), hrest⟩

/-- Settles O35: the operand is the one `shiftSource` reads, and the bit dropped is bit 0 or bit 7 of it. -/
theorem shiftsSetDroppedBitLast : Obligations.ShiftsSetDroppedBitLast := by
  intro x y s a ha
  obtain rfl : a = shiftSource s x y := ha
  constructor
  · obtain ⟨t, hexec, hv, hflag, hrest⟩ := exec_of_effect_setVThenFlag (i := .shr x y) (s := s) rfl rfl
    exact ⟨t, hexec, fun hx => hv hx ▸ shrResult_toNat _, hflag ▸ shrFlag_toNat _, hrest⟩
  · obtain ⟨t, hexec, hv, hflag, hrest⟩ := exec_of_effect_setVThenFlag (i := .shl x y) (s := s) rfl rfl
    exact ⟨t, hexec, fun hx => hv hx ▸ shlResult_toNat _, hflag ▸ shlFlag_toNat _, hrest⟩

end Sys2Proof.Machine

/-! PROOFS. The index register and the memory transfers (R106 to R112): the frames of a write of I, of a stored run of
bytes and of a register load, I under LOADSTORE_INCREMENTS_I, and the six instructions that use them. -/

namespace Sys2Proof.Machine

variable {i : Instr} {s : State}

/-! ## Writing I (R107 to R109) -/

theorem frame_i (s : State) (w : Word) : FrameExcept (fun p => p = .i) s { s with i := w } := by
  intro p hp
  cases p with
  | i => exact absurd rfl hp
  | _ => simp [Part.same, State.getV, State.key]

/-- An instruction that completes with only I written keeps everything but I and RUN. -/
theorem exec_of_effect_i {w : Word} (hend : i.ending s = .completes) (heff : i.effect s = { s with i := w }) :
    ∃ t, exec i s = .next t ∧ t.i = w ∧ t.status.run = .running ∧ FrameExcept (fun p => p = .i ∨ p = .run) s t := by
  refine ⟨{ s with i := w }.setRun .running, ?_, rfl, rfl, (frame_i s w).trans_or (frame_setRun _ _)⟩
  rw [exec_of_completes hend, heff]

theorem glyphAddress_toNat (b : Byte) : (glyphAddress b).toNat = b.toNat % 16 * 5 := by
  simp only [glyphAddress, lowNibble, BitVec.toNat_mul, BitVec.toNat_setWidth, BitVec.toNat_ofNat]
  omega

/-- Settles O37: both complete with I written, with the address zero-extended and with the glyph's address. -/
theorem indexLoads : Obligations.IndexLoads := by
  intro nnn x s
  refine ⟨decodeWord_encodeWord (i := .ldI nnn) rfl, decodeWord_encodeWord (i := .ldF x) rfl, ?_, ?_⟩
  · obtain ⟨t, hexec, hi, hrest⟩ := exec_of_effect_i (i := .ldI nnn) (s := s) rfl rfl
    exact ⟨t, hexec, hi ▸ zext16_toNat nnn, hrest⟩
  · obtain ⟨t, hexec, hi, hrest⟩ := exec_of_effect_i (i := .ldF x) (s := s) rfl rfl
    exact ⟨t, hexec, hi ▸ glyphAddress_toNat _, hrest⟩

/-- Settles O38: the sum of two words is theirs modulo 2^16, and a byte keeps its value as a word. -/
theorem indexAddWrapsAt16Bits : Obligations.IndexAddWrapsAt16Bits := by
  intro x s
  obtain ⟨t, hexec, hi, hrest⟩ := exec_of_effect_i (i := .addI x) (s := s) rfl rfl
  refine ⟨t, hexec, ?_, hrest⟩
  rw [hi, BitVec.toNat_add, BitVec.toNat_setWidth_of_le (by decide)]

/-! ## The range check and the frames of the transfers (R106) -/

theorem ending_completes_of_fits {n : Nat} (hcount : i.accessCount = some n) (hfits : s.i.toNat + n ≤ 4096) :
    i.ending s = .completes := by
  rw [ending_of_accessCount hcount, if_pos ((State.iInRange_iff s n).mpr (.inr hfits))]

theorem ending_raises_of_overruns {n : Nat} (hcount : i.accessCount = some n) (hpos : 0 < n)
    (hover : 4096 < s.i.toNat + n) : i.ending s = .raises .memoryFault := by
  have hrange : s.iInRange n = false := (State.iInRange_eq_false_iff s n).mpr ⟨hpos, hover⟩
  rw [ending_of_accessCount hcount, hrange, if_neg Bool.false_ne_true]

/-- The byte at an offset inside the stored run is the one stored there. -/
theorem Memory.read_writeBytes_inside (m : Memory) (a : Nat) {k : Nat} {bs : List Byte} (h : k < bs.length) :
    (m.writeBytes a bs).read (a + k) = bs[k] := by
  rw [Memory.read_writeBytes, dif_pos (by omega)]
  simp only [Nat.add_sub_cancel_left]

/-- A stored run changes the bytes it covers and nothing else. -/
theorem frame_writeBytes (s : State) (a : Nat) (bs : List Byte) :
    FrameExcept (fun p => ∃ b, p = .byte b ∧ a ≤ b ∧ b < a + bs.length) s
      { s with mem := s.mem.writeBytes a bs } := by
  intro p hp
  cases p with
  | byte b =>
    refine Memory.read_writeBytes_outside s.mem ?_
    by_contra hin
    exact hp ⟨b, rfl, by omega, by omega⟩
  | _ => simp [Part.same, State.getV, State.key]

theorem frame_loadFirstRegs (s : State) (x : Nibble) :
    FrameExcept (fun p => ∃ k : Nibble, p = .v k ∧ k.toNat ≤ x.toNat) s (s.loadFirstRegs x) := by
  intro p hp
  cases p with
  | v r => exact (State.getV_loadFirstRegs s x r).trans (if_neg fun hr => hp ⟨r, rfl, hr⟩)
  | _ => simp [Part.same, State.key]

/-! ## I after FX55 and FX65 (D25) -/

theorem bumpedI_toNat (s : State) (x : Nibble) : (s.bumpedI x).toNat =
    if s.cfg.loadStoreIncrementsI = true then (s.i.toNat + x.toNat + 1) % 65536 else s.i.toNat := by
  unfold State.bumpedI
  split_ifs
  · bv_omega
  · rfl

/-- Without LOADSTORE_INCREMENTS_I the write of I restores it. -/
theorem frame_bumpedI (s : State) (x : Nibble) :
    FrameExcept (fun p => p = .i ∧ s.cfg.loadStoreIncrementsI = true) s { s with i := s.bumpedI x } := by
  refine (frame_i s _).of_restored ?_
  rintro p rfl
  by_cases h : s.cfg.loadStoreIncrementsI = true
  · exact .inl ⟨rfl, h⟩
  · exact .inr (if_neg h)

/-! ## FX33 (R110) -/

/-- The digits of a byte, read back where they are stored: each is below 256, so its byte holds it whole. -/
theorem read_writeBytes_decimalDigits (m : Memory) (a : Nat) (b : Byte) :
    ((m.writeBytes a (decimalDigits b)).read a).toNat = b.toNat / 100 ∧
    ((m.writeBytes a (decimalDigits b)).read (a + 1)).toNat = b.toNat / 10 % 10 ∧
    ((m.writeBytes a (decimalDigits b)).read (a + 2)).toNat = b.toNat % 10 := by
  have hread (k : Nat) (hk : k < 3) : ((m.writeBytes a (decimalDigits b)).read (a + k)).toNat =
      ((decimalDigits b)[k]'hk).toNat := congrArg BitVec.toNat (Memory.read_writeBytes_inside m a hk)
  have hdigit {n : Nat} (hn : n < 256) : (BitVec.ofNat 8 n).toNat = n :=
    (BitVec.toNat_ofNat n 8).trans (Nat.mod_eq_of_lt hn)
  have hb : b.toNat < 256 := b.isLt
  exact ⟨(hread 0 (by decide)).trans (hdigit (by omega)), (hread 1 (by decide)).trans (hdigit (by omega)),
    (hread 2 (by decide)).trans (hdigit (by omega))⟩

/-- Settles O39: the three digits are stored as a run from I when it fits, and the range check raises the fault when it
does not. -/
theorem decimalSplitIsStored : Obligations.DecimalSplitIsStored := by
  intro x s
  refine ⟨decodeWord_encodeWord (i := .ldB x) rfl, fun hfits => ?_, fun hover => ?_⟩
  · have hcompletes : (Instr.ldB x).ending s = .completes := ending_completes_of_fits rfl (by omega)
    obtain ⟨hhundreds, htens, hones⟩ := read_writeBytes_decimalDigits s.mem s.base (s.getV x)
    refine ⟨_, exec_of_completes hcompletes, hhundreds, htens, hones, rfl, ?_⟩
    refine ((frame_writeBytes s s.base (decimalDigits (s.getV x))).trans_or (frame_setRun _ .running)).mono ?_
    rintro p (⟨a, rfl, hlo, hhi⟩ | hrun)
    · rw [length_decimalDigits] at hhi
      simp only [Part.byte.injEq]
      omega
    · exact .inr (.inr (.inr hrun))
  · exact exec_of_raises (ending_raises_of_overruns (i := .ldB x) rfl (by decide) (by omega))

/-! ## FX55 and FX65 (R111, R112) -/

/-- Settles O40: the registers are stored as a run from I, and I is written after it. -/
theorem storeRegistersInclusive : Obligations.StoreRegistersInclusive := by
  intro x s hfits
  have hcompletes : (Instr.storeRegs x).ending s = .completes := ending_completes_of_fits rfl (by omega)
  refine ⟨_, exec_of_completes hcompletes, fun k hk => ?_, bumpedI_toNat s x, rfl, ?_⟩
  · have hlength : k.toNat < (s.firstRegs x).length := by rw [length_firstRegs]; omega
    exact (Memory.read_writeBytes_inside s.mem s.base hlength).trans (getElem_firstRegs s x k hlength)
  · have hframe := (frame_writeBytes s s.base (s.firstRegs x)).trans_or
      ((frame_bumpedI { s with mem := s.mem.writeBytes s.base (s.firstRegs x) } x).trans_or (frame_setRun _ .running))
    refine hframe.mono fun p => Or.imp_left ?_
    rintro ⟨a, rfl, hlo, hhi⟩
    rw [length_firstRegs] at hhi
    exact ⟨a, rfl, hlo, by omega⟩

/-- Settles O41: the registers are loaded from the run at I, and I is written after it. -/
theorem loadRegistersInclusive : Obligations.LoadRegistersInclusive := by
  intro x s hfits
  have hcompletes : (Instr.loadRegs x).ending s = .completes := ending_completes_of_fits rfl (by omega)
  refine ⟨_, exec_of_completes hcompletes, fun k hk => ?_, bumpedI_toNat s x, rfl, ?_⟩
  · exact (State.getV_loadFirstRegs s x k).trans (if_pos hk)
  · exact (frame_loadFirstRegs s x).trans_or ((frame_bumpedI (s.loadFirstRegs x) x).trans_or (frame_setRun _ .running))

end Sys2Proof.Machine

/-! PROOFS. Display (R113 to R117): the elements DRW flips, the state it completes with, its frame and its flag, and two
equal draws in a row. -/

namespace Sys2Proof.Machine

variable {s : State} {x y n : Nibble}

/-! ## CLS (R114) -/

theorem frame_display (s : State) (d : Display) :
    FrameExcept (fun p => ∃ q, p = .pixel q) s { s with display := d } := by
  intro p hp
  cases p with
  | pixel q => exact absurd ⟨q, rfl⟩ hp
  | _ => simp [Part.same, State.getV, State.key]

/-- Settles O43: CLS completes with the clear display. -/
theorem clsClearsEveryPixel : Obligations.ClsClearsEveryPixel := by
  refine ⟨decodeWord_encodeWord (i := .cls) rfl, fun s => ?_⟩
  exact ⟨_, exec_of_completes (i := .cls) rfl, fun p _ => pixelOf_clear p, rfl,
    (frame_display s Display.clear).trans_or (frame_setRun _ .running)⟩

/-! ## The elements a DRW flips (R113, R115) -/

/-- The elements a DRW flips, the coordinates being read after VF is cleared (D29). -/
def State.flipped (s : State) (x y n : Nibble) : List Nat := drawList (s.setV flagReg 0#8) x y n

/-- The remainder of a coordinate register read after VF is cleared (D29). -/
theorem getV_clearedVf_mod (s : State) (r : Nibble) (m : Nat) :
    ((s.setV flagReg 0#8).getV r).toNat % m = if r = 0xF#4 then 0 else (s.getV r).toNat % m := by
  rw [State.getV_setV]
  change (if r = 0xF#4 then 0#8 else s.getV r).toNat % m = _
  split_ifs
  · exact Nat.zero_mod m
  · rfl

theorem mem_flipped {p : Nat} : p ∈ s.flipped x y n ↔
    ∃ r c, r < n.toNat ∧ c < 8 ∧ (s.mem.read (s.base + r)).getLsbD (7 - c) = true ∧
      p = ((if y = 0xF#4 then 0 else (s.getV y).toNat % 32) + r) % 32 * 64 +
        ((if x = 0xF#4 then 0 else (s.getV x).toNat % 64) + c) % 64 := by
  rw [State.flipped, mem_drawList, getV_clearedVf_mod, getV_clearedVf_mod]
  rfl

theorem nodup_flipped (s : State) (x y n : Nibble) : (s.flipped x y n).Nodup := nodup_drawList _ x y n

theorem flipped_lt {p : Nat} (h : p ∈ s.flipped x y n) : p < 2048 := drawList_lt _ x y n p h

/-- A byte is not 0 exactly when one of its bits, counted from the left, is on. -/
theorem byte_ne_zero_iff {b : Byte} : b ≠ 0 ↔ ∃ c < 8, b.getLsbD (7 - c) = true := by
  constructor
  · intro hb
    by_contra hoff
    push Not at hoff
    refine hb (BitVec.eq_of_getLsbD_eq fun k hk => ?_)
    have hbit : b.getLsbD (7 - (7 - k)) = false := Bool.eq_false_iff.mpr (hoff (7 - k) (by omega))
    have hback : 7 - (7 - k) = k := by omega
    rw [← hback, hbit]
    exact BitVec.getLsbD_zero.symm
  · rintro ⟨c, -, hbit⟩ rfl
    exact Bool.false_ne_true (BitVec.getLsbD_zero.symm.trans hbit)

/-- A sprite flips some element exactly when one of its bytes is not 0. -/
theorem exists_mem_flipped_iff : (∃ p, p ∈ s.flipped x y n) ↔ ∃ r < n.toNat, s.mem.read (s.base + r) ≠ 0 := by
  constructor
  · rintro ⟨p, hp⟩
    obtain ⟨r, c, hr, hc, hbit, -⟩ := mem_flipped.mp hp
    exact ⟨r, hr, byte_ne_zero_iff.mpr ⟨c, hc, hbit⟩⟩
  · rintro ⟨r, hr, hb⟩
    obtain ⟨c, hc, hbit⟩ := byte_ne_zero_iff.mp hb
    exact ⟨_, mem_flipped.mpr ⟨r, c, hr, hc, hbit, rfl⟩⟩

/-! ## The state a DRW completes with (R115) -/

/-- The state a DRW in range completes with. -/
def State.afterDrw (s : State) (x y n : Nibble) : State :=
  ((s.setV flagReg 0#8).drawSprite x y n).setRun .running

theorem exec_drw_of_iInRange (x y : Nibble) (h : s.iInRange n.toNat = true) :
    exec (.drw x y n) s = .next (s.afterDrw x y n) := by
  have hcompletes : (Instr.drw x y n).ending s = .completes := (ending_of_accessCount rfl).trans (if_pos h)
  exact exec_of_completes hcompletes

theorem exec_drw_of_fits (x y : Nibble) (h : s.i.toNat + n.toNat ≤ 4096) :
    exec (.drw x y n) s = .next (s.afterDrw x y n) :=
  exec_drw_of_iInRange x y ((State.iInRange_iff s n.toNat).mpr (.inr h))

/-- A DRW keeps I, so a second one is in range as well. -/
theorem exec_drw_afterDrw_of_fits (x y : Nibble) (h : s.i.toNat + n.toNat ≤ 4096) :
    exec (.drw x y n) (s.afterDrw x y n) = .next ((s.afterDrw x y n).afterDrw x y n) :=
  exec_drw_of_fits (s := s.afterDrw x y n) x y h

theorem pixelOf_afterDrw (s : State) (x y n : Nibble) (p : Nat) :
    pixelOf (s.afterDrw x y n).display p = (pixelOf s.display p ^^ decide (p ∈ s.flipped x y n)) := by
  by_cases hp : p < 2048
  · exact pixelOf_drawPixels _ _ _ (nodup_flipped s x y n) p hp
  · have hout : p ∉ s.flipped x y n := fun h => hp (flipped_lt h)
    rw [pixelOf_of_ge _ p (by omega), pixelOf_of_ge _ p (by omega), decide_eq_false hout]
    rfl

theorem flagByte_eq_one_iff {b : Bool} : flagByte b = 1 ↔ b = true := by
  cases b <;> decide

theorem flagByte_eq_zero_iff {b : Bool} : flagByte b = 0 ↔ b = false := by
  cases b <;> decide

/-- VF after a DRW tells whether one of the elements it flips was on. -/
theorem getV_flag_afterDrw (s : State) (x y n : Nibble) :
    (s.afterDrw x y n).getV 0xF#4 = flagByte ((s.flipped x y n).any (pixelOf s.display)) := by
  have hflag : (s.afterDrw x y n).getV 0xF#4 = flagByte (drawPixels s.display false (s.flipped x y n)).2 :=
    (getV_drawSprite (s.setV flagReg 0#8) x y n 0xF#4).trans (if_pos rfl)
  rw [hflag, drawPixels_hit _ _ _ (nodup_flipped s x y n) fun _ => flipped_lt, Bool.false_or]

theorem flag_afterDrw_eq_one_iff : (s.afterDrw x y n).getV 0xF#4 = 1 ↔
    ∃ p, p ∈ s.flipped x y n ∧ pixelOf s.display p = true := by
  rw [getV_flag_afterDrw, flagByte_eq_one_iff, List.any_eq_true]

theorem flag_afterDrw_eq_zero_iff : (s.afterDrw x y n).getV 0xF#4 = 0 ↔
    ¬ ∃ p, p ∈ s.flipped x y n ∧ pixelOf s.display p = true := by
  rw [getV_flag_afterDrw, flagByte_eq_zero_iff, ← Bool.not_eq_true, List.any_eq_true]

theorem frame_drawSprite (s : State) (x y n : Nibble) :
    FrameExcept (fun p => (∃ q, p = .pixel q) ∨ p = .v 0xF#4) s (s.drawSprite x y n) :=
  (frame_display s _).trans_or (frame_setV _ flagReg _)

/-- A DRW changes the elements it flips, VF and RUN. -/
theorem frame_afterDrw (s : State) (x y n : Nibble) :
    FrameExcept (fun p => (∃ q, p = .pixel q ∧ q ∈ s.flipped x y n) ∨ p = .v 0xF#4 ∨ p = .run) s
      (s.afterDrw x y n) := by
  have hframe := (frame_setV s flagReg 0#8).trans_or
    ((frame_drawSprite (s.setV flagReg 0#8) x y n).trans_or (frame_setRun _ .running))
  refine FrameExcept.of_restored (t := s.afterDrw x y n) hframe ?_
  rintro p (hv | (⟨q, rfl⟩ | hv) | hrun)
  · exact .inl (.inr (.inl hv))
  · by_cases hq : q ∈ s.flipped x y n
    · exact .inl (.inl ⟨q, rfl, hq⟩)
    · refine .inr ((pixelOf_afterDrw s x y n q).trans ?_)
      rw [decide_eq_false hq, Bool.xor_false]
  · exact .inl (.inr (.inl hv))
  · exact .inl (.inr (.inr hrun))

/-- Settles O44: the covered elements are the flipped ones. -/
theorem drawFlipsTheSpritePixels : Obligations.DrawFlipsTheSpritePixels := by
  rintro x y n s _ _ covered hfits rfl rfl hcovered
  obtain rfl : covered = fun p => p ∈ s.flipped x y n :=
    funext fun p => propext ((hcovered p).trans mem_flipped.symm)
  refine ⟨_, exec_drw_of_fits x y hfits, fun p _ => ⟨fun hp => ?_, fun hp => ?_⟩, flag_afterDrw_eq_one_iff.mpr,
    flag_afterDrw_eq_zero_iff.mpr, rfl, frame_afterDrw s x y n⟩
  · rw [pixelOf_afterDrw, decide_eq_true hp, Bool.xor_true]
  · rw [pixelOf_afterDrw, decide_eq_false hp, Bool.xor_false]

/-- Settles O45: a sprite of no rows is in range everywhere and flips nothing. -/
theorem drawOfNoRowsClearsVf : Obligations.DrawOfNoRowsClearsVf := by
  intro x y s
  have hnone (p : Nat) : p ∉ s.flipped x y 0#4 := List.not_mem_nil
  refine ⟨_, exec_drw_of_iInRange x y ((State.iInRange_iff s 0).mpr (.inl rfl)), ?_, rfl, ?_⟩
  · exact flag_afterDrw_eq_zero_iff.mpr fun ⟨p, hp, _⟩ => hnone p hp
  · exact (frame_afterDrw s x y 0#4).mono fun _ hp => hp.resolve_left fun ⟨q, _, hq⟩ => hnone q hq

/-! ## Two equal draws (R117) -/

theorem getV_afterDrw_of_ne {r : Nibble} (hr : r ≠ flagReg) : (s.afterDrw x y n).getV r = s.getV r := by
  have hdraw : (s.afterDrw x y n).getV r = (s.setV flagReg 0#8).getV r :=
    (getV_drawSprite (s.setV flagReg 0#8) x y n r).trans (if_neg hr)
  rw [hdraw, State.getV_setV, if_neg hr]

/-- Clearing VF hides what a DRW leaves in it, and the rest of what a DRW reads it keeps. -/
theorem flipped_afterDrw (s : State) (x y n : Nibble) :
    (s.afterDrw x y n).flipped x y n = s.flipped x y n := by
  have hreg (r : Nibble) : ((s.afterDrw x y n).setV flagReg 0#8).getV r = (s.setV flagReg 0#8).getV r := by
    rw [State.getV_setV, State.getV_setV]
    split_ifs with hr
    · rfl
    · exact getV_afterDrw_of_ne hr
  rw [State.flipped, drawList, hreg, hreg]
  rfl

/-- The second of two equal draws collides exactly when it flips an element that was off before the first. -/
theorem flag_afterDrw_twice_eq_one_iff : ((s.afterDrw x y n).afterDrw x y n).getV 0xF#4 = 1 ↔
    ∃ p, p ∈ s.flipped x y n ∧ pixelOf s.display p = false := by
  rw [flag_afterDrw_eq_one_iff, flipped_afterDrw]
  refine exists_congr fun p => and_congr_right fun hp => ?_
  rw [pixelOf_afterDrw, decide_eq_true hp, Bool.xor_true, Bool.not_eq_true']

/-- A DRW turns on the elements it flips that were off, and no others. -/
theorem turnedOn_afterDrw_iff {p : Nat} :
    (pixelOf (s.afterDrw x y n).display p = true ∧ pixelOf s.display p = false) ↔
      p ∈ s.flipped x y n ∧ pixelOf s.display p = false := by
  refine and_congr_left fun hoff => ?_
  rw [pixelOf_afterDrw, hoff, Bool.false_xor, decide_eq_true_iff]

theorem display_afterDrw_twice (s : State) (x y n : Nibble) :
    ((s.afterDrw x y n).afterDrw x y n).display = s.display := by
  refine display_ext _ _ fun p _ => ?_
  rw [pixelOf_afterDrw, flipped_afterDrw, pixelOf_afterDrw, Bool.xor_assoc, Bool.xor_self, Bool.xor_false]

/-- Settles O46: both draws flip the same elements, and the second collides on those that the first turned on. -/
theorem drawTwiceRestoresDisplay : Obligations.DrawTwiceRestoresDisplay := by
  intro x y n s hfits
  refine ⟨_, _, exec_drw_of_fits x y hfits, exec_drw_afterDrw_of_fits x y hfits, display_afterDrw_twice s x y n,
    ?_, ?_, fun hclear => ?_⟩
  · exact (em _).imp flag_afterDrw_eq_one_iff.mpr flag_afterDrw_eq_zero_iff.mpr
  · simp only [flag_afterDrw_twice_eq_one_iff, turnedOn_afterDrw_iff]
    exact exists_congr fun p => (and_iff_right_of_imp fun ⟨hp, _⟩ => flipped_lt hp).symm
  · rw [flag_afterDrw_twice_eq_one_iff, ← exists_mem_flipped_iff]
    exact exists_congr fun p => and_iff_left_of_imp fun hp => hclear p (flipped_lt hp)

/-- Settles O60: after a clean first draw every element it flips was off, and a sprite of zeros flips none. -/
theorem secondDrawCollidesAfterCleanDraw : Obligations.SecondDrawCollidesAfterCleanDraw := by
  intro x y n s hfits
  refine ⟨_, _, exec_drw_of_fits x y hfits, exec_drw_afterDrw_of_fits x y hfits, fun hclean hsome => ?_,
    fun hzero => ?_⟩
  · obtain ⟨p, hp⟩ := exists_mem_flipped_iff.mpr hsome
    have hoff : pixelOf s.display p = false :=
      Bool.eq_false_iff.mpr fun hon => flag_afterDrw_eq_zero_iff.mp hclean ⟨p, hp, hon⟩
    exact flag_afterDrw_twice_eq_one_iff.mpr ⟨p, hp, hoff⟩
  · rw [flag_afterDrw_eq_zero_iff, flipped_afterDrw]
    rintro ⟨p, hp, -⟩
    obtain ⟨r, hr, hb⟩ := exists_mem_flipped_iff.mp ⟨p, hp⟩
    exact hb (hzero r hr)

/-- Refutes O47: one row of glyph 0 drawn at the corner of the clear display, and then twice more. The second of those two
draws flips the elements 0 to 3 where the first of them has turned all four off (log 14). -/
theorem not_secondDrawAlwaysCollides : ¬ Obligations.SecondDrawAlwaysCollides := by
  intro h
  have hfits : (State.reset.afterDrw 0 0 1).i.toNat + (1#4).toNat ≤ 4096 := by decide
  have hsome : ∃ r < (1#4).toNat,
      (State.reset.afterDrw 0 0 1).mem.read ((State.reset.afterDrw 0 0 1).base + r) ≠ 0 := ⟨0, by decide, by decide⟩
  have hcollides := h 0 0 1 _ _ _ hfits (exec_drw_of_fits 0 0 hfits) (exec_drw_afterDrw_of_fits 0 0 hfits) hsome
  have hclean : (((State.reset.afterDrw 0 0 1).afterDrw 0 0 1).afterDrw 0 0 1).getV 0xF#4 = 0 := by decide
  exact absurd (hcollides.symm.trans hclean) (by decide)

end Sys2Proof.Machine

/-! PROOFS. Keys and timers (R118 to R123): the key a low nibble names and the two skips on it, the frame of a completed
instruction from that of its effect, and the three timer transfers. -/

namespace Sys2Proof.Machine

variable {i : Instr} {s : State}

/-! ## The key skips (R118, R119) -/

theorem setWidth_four_of_toNat_eq_mod {b : Byte} {k : Nibble} (hk : k.toNat = b.toNat % 16) : b.setWidth 4 = k :=
  BitVec.eq_of_toNat_eq ((BitVec.toNat_setWidth 4 b).trans hk.symm)

/-- Settles O48: both are skips on the one key that the low nibble names, SKNP on its negation. -/
theorem keySkips : Obligations.KeySkips := by
  intro x k s hk
  obtain rfl : (s.getV x).setWidth 4 = k := setWidth_four_of_toNat_eq_mod hk
  refine ⟨decodeWord_encodeWord (i := .skp x) rfl, decodeWord_encodeWord (i := .sknp x) rfl, ?_, ?_⟩
  · exact exec_of_effect_skip (i := .skp x) Iff.rfl Iff.rfl rfl rfl
  · exact exec_of_effect_skip (i := .sknp x) (iff_of_eq (Bool.not_eq_true' _))
      (iff_of_eq (Bool.not_eq_false' _)) rfl rfl

/-! ## The timer transfers (R120, R122, R123) -/

theorem frame_dt (s : State) (b : Byte) : FrameExcept (fun p => p = .dt) s { s with dt := b } := by
  intro p hp
  cases p with
  | dt => exact absurd rfl hp
  | _ => simp [Part.same, State.getV, State.key]

theorem frame_st (s : State) (b : Byte) : FrameExcept (fun p => p = .st) s { s with st := b } := by
  intro p hp
  cases p with
  | st => exact absurd rfl hp
  | _ => simp [Part.same, State.getV, State.key]

/-- An instruction that completes changes what its effect changes, and RUN. -/
theorem exec_of_effect_frame {changed : Part → Prop} (hend : i.ending s = .completes)
    (hframe : FrameExcept changed s (i.effect s)) :
    exec i s = .next ((i.effect s).setRun .running) ∧
      FrameExcept (fun p => changed p ∨ p = .run) s ((i.effect s).setRun .running) :=
  ⟨exec_of_completes hend, hframe.trans_or (frame_setRun _ _)⟩

/-- Settles O50: FX07 writes the one register with DT; FX15 and FX18 write the one timer with V[x]. -/
theorem timerTransfers : Obligations.TimerTransfers := by
  intro x s
  refine ⟨decodeWord_encodeWord (i := .ldVxDt x) rfl, decodeWord_encodeWord (i := .ldDtVx x) rfl,
    decodeWord_encodeWord (i := .ldStVx x) rfl, ?_, ?_, ?_⟩
  · exact exec_of_effect_setV (i := .ldVxDt x) rfl rfl
  · obtain ⟨hexec, hframe⟩ := exec_of_effect_frame (i := .ldDtVx x) rfl (frame_dt s (s.getV x))
    exact ⟨_, hexec, rfl, rfl, hframe⟩
  · obtain ⟨hexec, hframe⟩ := exec_of_effect_frame (i := .ldStVx x) rfl (frame_st s (s.getV x))
    exact ⟨_, hexec, rfl, rfl, hframe⟩

end Sys2Proof.Machine

/-! PROOFS. Exceptions (R124 to R132): the mode's decision on a fault, the halts of a step and their causes, LOAD of an
oversized program, and what a halted block keeps. -/

namespace Sys2Proof.Machine

variable {i : Instr} {s t : State} {kind : FaultKind} {rom : List Byte}

/-! ## The halting steps and their causes (R124, R127, R130) -/

/-- A fault raised at PC = P + 2 that halts the block leaves only the fetch's PC and STATUS changed, with P recorded. -/
theorem afterFault_advance_of_halted {w : Word} (h : (s.advance.afterFault kind w).status.run = .halted) :
    kind.halts s.cfg.strict = true ∧ s.advance.afterFault kind w =
      { s with pc := s.pc + 2, status := ⟨.halted, some kind, false, s.pc, w⟩ } := by
  obtain ⟨hhalts, heq⟩ | ⟨-, heq⟩ := raise_cases (raise_eq kind w s.advance)
  · have hback : s.advance.pc - 2#16 = s.pc := BitVec.add_sub_cancel s.pc 2#16
    refine ⟨hhalts, ?_⟩
    rw [heq, hback]
    rfl
  · rw [heq] at h
    cases h

/-- The cause of R124 for a fault of this kind raised by an instruction. -/
def FaultCause (i : Instr) (s : State) (kind : FaultKind) : Prop :=
  (kind = .stackOverflow ∧ s.sp.toNat = 16 ∧ ∃ nnn, i = .call nnn) ∨
  (kind = .stackUnderflow ∧ s.sp.toNat = 0 ∧ i = .ret) ∨
  (kind = .memoryFault ∧ ∃ count, i.accessCount = some count ∧ 0 < count ∧ s.i.toNat + count > 4096)

/-- An instruction raises a fault only for its cause. -/
theorem faultCause_of_ending_raises (h : i.ending s = .raises kind) : FaultCause i s kind := by
  unfold Instr.ending at h
  split at h
  case h_1 =>
    split_ifs at h with hsp
    cases h
    exact .inr (.inl ⟨rfl, congrArg BitVec.toNat hsp, rfl⟩)
  case h_2 nnn =>
    split_ifs at h with hsp
    cases h
    exact .inl ⟨rfl, congrArg BitVec.toNat hsp, nnn, rfl⟩
  case h_3 => split_ifs at h
  case h_4 =>
    cases hcount : i.accessCount with
    | none => simp [hcount] at h
    | some count =>
      cases hrange : s.iInRange count with
      | true => simp [hcount, hrange] at h
      | false =>
        obtain rfl : .memoryFault = kind := by simpa [hcount, hrange] using h
        exact .inr (.inr ⟨rfl, count, hcount, (State.iInRange_eq_false_iff s count).mp hrange⟩)

/-- An instruction halts the block only by raising a fault: every other ending writes RUN (R75). -/
theorem exists_raises_of_exec_halts (h : exec i s = .next t) (ht : t.status.run = .halted) :
    ∃ kind, i.ending s = .raises kind ∧ t = s.afterFault kind (encodeWord i) := by
  obtain ⟨-, rfl⟩ | ⟨-, rfl⟩ | hraises := exec_cases h
  · cases ht
  · cases ht
  · exact hraises

/-- Settles O17: a running block halts at fetch, at decode, or by the fault its instruction raises, whose cause
`faultCause_of_ending_raises` gives. -/
theorem haltingStepIsPrecise : Obligations.HaltingStepIsPrecise := by
  intro s t hrun h ht
  obtain ⟨hr, -⟩ | ⟨-, hpc, hstep⟩ | ⟨-, w, e, hf, hd, hstep⟩ | ⟨-, w, i, hf, hd, hstep⟩ := step_cases s
  · exact absurd hr hrun
  · obtain rfl : haltAtFetch s = t := by simpa [hstep] using h
    exact .inl ⟨hpc, rfl⟩
  · obtain rfl : s.advance.afterFault .decodeFault w = t := by simpa [hstep, raise_eq] using h
    obtain ⟨hhalts, heq⟩ := afterFault_advance_of_halted ht
    exact .inr ⟨w, _, hf, heq, .inl ⟨rfl, hhalts, e, hd⟩⟩
  · obtain ⟨kind, hraises, rfl⟩ := exists_raises_of_exec_halts (hstep.symm.trans h) ht
    obtain ⟨-, rfl⟩ := decodeWord_sound hd
    obtain ⟨hhalts, heq⟩ := afterFault_advance_of_halted ht
    refine .inr ⟨_, kind, hf, heq, .inr ?_⟩
    obtain ⟨rfl, hsp, nnn, rfl⟩ | ⟨rfl, hsp, rfl⟩ | ⟨rfl, count, hcount, hpos, hout⟩ :=
      faultCause_of_ending_raises hraises
    · exact .inl ⟨rfl, hsp, nnn, hd⟩
    · exact .inr (.inl ⟨rfl, hsp, hd⟩)
    · exact .inr (.inr ⟨rfl, hhalts, i, count, hd, hcount, hpos, hout⟩)

/-! ## Faults by kind and mode (R126 to R128) -/

theorem FaultKind.halts_iff {strict : Bool} :
    kind.halts strict = true ↔ kind = .stackOverflow ∨ kind = .stackUnderflow ∨ strict = true := by
  cases kind <;> simp [FaultKind.halts]

/-- Settles O11: the mode's decision is `FaultKind.halts`. -/
theorem faultHandlingByMode : Obligations.FaultHandlingByMode := by
  intro kind opcode s _
  rw [raise_eq, ← FaultKind.halts_iff]
  refine ⟨fun hhalts => ?_, fun hignored => ?_⟩
  · exact congrArg _ (State.afterFault_of_halts opcode hhalts)
  · exact congrArg _ (State.afterFault_of_ignored opcode (Bool.eq_false_iff.mpr hignored))

/-! ## LOAD of an oversized program (R129) -/

theorem loadFits_eq_false_iff : loadFits rom = false ↔ rom.length > 3584 :=
  decide_eq_false_iff_not.trans not_le

theorem load_of_fits (h : loadFits rom = true) : s.load rom = { s with mem := s.mem.loadProgram rom } := if_pos h

theorem load_of_oversized (h : loadFits rom = false) :
    s.load rom = if s.cfg.strict then s.halt .romTooLarge false 0#16 0#16 else s :=
  if_neg (Bool.eq_false_iff.mp h)

/-- Settles O57: the program does not fit, and the mode decides whether its rejection halts. -/
theorem oversizedLoadIsRejected : Obligations.OversizedLoadIsRejected := by
  intro rom s hlen
  have hfits : loadFits rom = false := loadFits_eq_false_iff.mpr hlen
  rw [load_of_oversized hfits]
  refine ⟨?_, fun hlenient => ?_, fun hstrict => ?_⟩
  · rw [loadResult, hfits]
    rfl
  · simp [hlenient]
  · rw [if_pos hstrict]
    rfl

/-! ## What a halted block keeps (R127, R132, R145) -/

/-- A program is placed from 0x200 (R148). -/
theorem frame_loadProgram (s : State) (rom : List Byte) :
    FrameExcept (fun p => ∃ a, p = .byte a ∧ 0x200 ≤ a) s { s with mem := s.mem.loadProgram rom } := by
  intro p hp
  cases p with
  | byte a =>
    have ha : a < Config.loadAddress := by
      by_contra hge
      exact hp ⟨a, rfl, not_lt.mp hge⟩
    exact (Memory.read_loadProgram s.mem rom a).trans (if_pos ha)
  | _ => simp [Part.same, State.getV, State.key]

theorem frame_halt (s : State) (kind : FaultKind) (fetch : Bool) (faultPc faultOp : Word) :
    FrameExcept (fun p => p = .run ∨ p = .faultRecord) s (s.halt kind fetch faultPc faultOp) := by
  intro p hp
  cases p with
  | run => exact absurd (.inl rfl) hp
  | faultRecord => exact absurd (.inr rfl) hp
  | _ => simp [Part.same, State.getV, State.key]

/-- The parts that can change in a halted block: the timers, the keys, memory from 0x200 and the fault record. -/
def ChangesWhileHalted (p : Part) : Prop :=
  p = .dt ∨ p = .st ∨ (∃ k, p = .key k) ∨ (∃ a, p = .byte a ∧ 0x200 ≤ a) ∨ p = .faultRecord

/-- A LOAD of a halted block: the program placed, or its rejection, which leaves RUN as it was (log 15). -/
theorem load_of_halted (rom : List Byte) (h : s.status.run = .halted) :
    (s.load rom).status.run = .halted ∧ FrameExcept ChangesWhileHalted s (s.load rom) := by
  cases hfits : loadFits rom with
  | true =>
    rw [load_of_fits hfits]
    exact ⟨h, (frame_loadProgram s rom).mono fun _ hp => .inr (.inr (.inr (.inl hp)))⟩
  | false =>
    rw [load_of_oversized hfits]
    split_ifs
    · refine ⟨rfl, (frame_halt s .romTooLarge false 0#16 0#16).of_restored ?_⟩
      rintro p (rfl | rfl)
      · exact .inr h.symm
      · exact .inl (.inr (.inr (.inr (.inr rfl))))
    · exact ⟨h, FrameExcept.refl _ s⟩

theorem transact_of_halted {font : Vector Byte 80} {tr : Transaction} (h : s.status.run = .halted)
    (hreset : ∀ cfg, tr ≠ .reset cfg) :
    ∃ t, transact font tr s = .next t ∧ t.status.run = .halted ∧ FrameExcept ChangesWhileHalted s t := by
  cases tr with
  | reset cfg => exact absurd rfl (hreset cfg)
  | load rom => exact ⟨_, rfl, load_of_halted rom h⟩
  | step r => exact ⟨s, (haltedStepChangesNothing s r h).2, h, FrameExcept.refl _ s⟩
  | tick => exact ⟨_, rfl, h, (frame_tick s).mono fun _ hp => hp.imp_right .inl⟩
  | key k down => exact ⟨_, rfl, h, (frame_keyEvent s k down).mono fun _ hp => .inr (.inr (.inl ⟨k, hp⟩))⟩
  | read => exact ⟨s, rfl, h, FrameExcept.refl _ s⟩

/-- Settles O55, by induction on the transactions. -/
theorem onlyResetLeavesHalted : Obligations.OnlyResetLeavesHalted := by
  intro font ts
  induction ts with
  | nil => exact fun s h _ => ⟨s, rfl, h, FrameExcept.refl _ s⟩
  | cons tr ts ih =>
    intro s h hreset
    obtain ⟨u, hu, hhalted, hframe⟩ :=
      transact_of_halted (font := font) h fun cfg e => hreset cfg (e ▸ List.mem_cons_self)
    obtain ⟨t, ht, hhalted', hframe'⟩ := ih u hhalted fun cfg hmem => hreset cfg (List.mem_cons_of_mem tr hmem)
    exact ⟨t, by simpa only [transactAll, hu] using ht, hhalted', hframe.trans hframe'⟩

end Sys2Proof.Machine

/-! PROOFS. Reset and hazards (R148, R154): what memory reads after a LOAD of a program that fits, and the steps, the
length and the positions of the cooperative schedule. -/

namespace Sys2Proof.Machine

variable {period left passed : Nat}

/-! ## LOAD of a program that fits (R148) -/

theorem Memory.read_loadProgram_inside (m : Memory) {rom : List Byte} {k : Nat} (h : k < rom.length) :
    (m.loadProgram rom).read (Config.loadAddress + k) = rom[k] := by
  rw [Memory.read_loadProgram, if_neg (by omega), Memory.read_cellsFrom, dif_pos (by omega)]
  simp only [Nat.add_sub_cancel_left]

/-- After the program memory reads as RESET leaves it, which is zero there. -/
theorem Memory.read_loadProgram_above (m : Memory) {rom : List Byte} {a : Nat}
    (h : Config.loadAddress + rom.length ≤ a) : (m.loadProgram rom).read a = 0 := by
  have hfont : 80 ≤ Config.loadAddress := by decide
  rw [Memory.read_loadProgram, if_neg (by omega), Memory.read_cellsFrom, dif_neg (by omega),
    Memory.blank_above a (by omega)]

/-- Settles O56: the program fits, so the LOAD is `loadProgram`. -/
theorem loadPlacesTheProgram : Obligations.LoadPlacesTheProgram := by
  intro rom s hlen
  have hfits : loadFits rom = true := decide_eq_true hlen
  rw [load_of_fits hfits]
  refine ⟨?_, fun k h => ?_, fun a ha _ => ?_, frame_loadProgram s rom⟩
  · rw [loadResult, if_pos hfits]
  · exact Memory.read_loadProgram_inside s.mem h
  · exact Memory.read_loadProgram_above s.mem ha

/-! ## The cooperative schedule (R154)

A round is `period` steps and a TICK. In `cooperativeFrom period left`, `passed` steps of the round are behind and `left` more
come before its last one: `passed + left + 1 = period`. -/

theorem stepByte_step (r : Byte) : (Transaction.step r).stepByte = some r := rfl

theorem stepByte_tick : Transaction.tick.stepByte = none := rfl

theorem filterMap_stepByte_cooperativeFrom (period left : Nat) (draws : List Byte) :
    (cooperativeFrom period left draws).filterMap Transaction.stepByte = draws := by
  induction draws generalizing left with
  | nil => cases left <;> rfl
  | cons r rs ih =>
    cases left with
    | zero =>
      rw [cooperativeFrom, List.filterMap_cons_some (stepByte_step r), List.filterMap_cons_none stepByte_tick, ih]
    | succ left => rw [cooperativeFrom, List.filterMap_cons_some (stepByte_step r), ih]

theorem length_cooperativeFrom (draws : List Byte) (hround : passed + left + 1 = period) :
    (cooperativeFrom period left draws).length = draws.length + (draws.length + passed) / period := by
  induction draws generalizing left passed with
  | nil =>
    have hdiv : passed / period = 0 := Nat.div_eq_of_lt (by omega)
    cases left <;> simp [cooperativeFrom, hdiv]
  | cons r rs ih =>
    cases left with
    | zero =>
      have hrest := ih (left := period - 1) (passed := 0) (by omega)
      have hdiv : (rs.length + 1 + passed) / period = rs.length / period + 1 := by
        rw [← Nat.add_div_right rs.length (by omega : 0 < period)]
        congr 1
        omega
      simp only [cooperativeFrom, List.length_cons, hrest, hdiv, Nat.add_zero]
      omega
    | succ left =>
      have hrest := ih (left := left) (passed := passed + 1) (by omega)
      have hcount : rs.length + 1 + passed = rs.length + (passed + 1) := by omega
      simp only [cooperativeFrom, List.length_cons, hrest, hcount]
      omega

/-- The kind a transaction has at position `n` of a schedule, counted from 1: a TICK ends each round of `period + 1`. -/
def ScheduledAt (period n : Nat) (tr : Transaction) : Prop :=
  (n % (period + 1) = 0 → tr = .tick) ∧ (n % (period + 1) ≠ 0 → ∃ r, tr = .step r)

theorem scheduledAt_step (r : Byte) (hpos : 0 < passed) (hle : passed ≤ period) :
    ScheduledAt period passed (.step r) := by
  have hmod : passed % (period + 1) ≠ 0 := by rw [Nat.mod_eq_of_lt (by omega)]; omega
  exact ⟨fun h => absurd h hmod, fun _ => ⟨r, rfl⟩⟩

theorem scheduledAt_tick (period : Nat) : ScheduledAt period (period + 1) .tick :=
  ⟨fun _ => rfl, fun h => absurd (Nat.mod_self _) h⟩

theorem scheduledAt_add_round {n : Nat} {tr : Transaction} :
    ScheduledAt period (n + (period + 1)) tr ↔ ScheduledAt period n tr := by
  simp only [ScheduledAt, Nat.add_mod_right]

theorem scheduledAt_getElem_cooperativeFrom (draws : List Byte) (hround : passed + left + 1 = period) (k : Nat)
    (hk : k < (cooperativeFrom period left draws).length) :
    ScheduledAt period (passed + k + 1) (cooperativeFrom period left draws)[k] := by
  induction draws generalizing left passed k with
  | nil => cases left <;> simp [cooperativeFrom] at hk
  | cons r rs ih =>
    cases left with
    | zero =>
      obtain rfl : passed + 1 = period := hround
      match k with
      | 0 => exact scheduledAt_step r (by omega) (by omega)
      | 1 => exact scheduledAt_tick _
      | k + 2 =>
        have hrest := ih (left := passed) (passed := 0) (by omega) k (by simpa [cooperativeFrom] using hk)
        have hpos : passed + (k + 2) + 1 = 0 + k + 1 + (passed + 1 + 1) := by omega
        rw [hpos]
        exact scheduledAt_add_round.mpr hrest
    | succ left =>
      match k with
      | 0 => exact scheduledAt_step r (by omega) (by omega)
      | k + 1 =>
        have hrest := ih (left := left) (passed := passed + 1) (by omega) k (by simpa [cooperativeFrom] using hk)
        rwa [Nat.add_right_comm passed 1 k] at hrest

/-- Settles O59: the schedule starts with a whole round ahead, no step of it behind. -/
theorem cooperativeScheduleTicks : Obligations.CooperativeScheduleTicks := by
  intro rate period draws hperiod
  have hround : 0 + (ticksPerTimer rate - 1) + 1 = period := by
    rw [hperiod, ticksPerTimer, Config.timerRateHz]
    omega
  obtain rfl : ticksPerTimer rate = period := hperiod.symm
  refine ⟨filterMap_stepByte_cooperativeFrom _ _ draws, length_cooperativeFrom draws hround, fun k h => ?_⟩
  have hkind := scheduledAt_getElem_cooperativeFrom draws hround k h
  rwa [Nat.zero_add] at hkind

end Sys2Proof.Machine
